-- ==== Sys2Proof/Word.lean ====
section
/-! DEFINITION. The word types of the engine: bytes, bus addresses, 16-bit lengths, and the fixed-size byte strings (00_scope.md R12, R13, R14). -/

namespace Sys2Proof

/-- A byte: 8 bits, bit 7 the most significant (00_scope.md R13). -/
abbrev Byte := BitVec 8

/-- A bus address, 16 bits (20_memory.md R50). -/
abbrev Addr := BitVec 16

/-- A length register, 16 bits, unsigned (10_state.md R29). -/
abbrev Half := BitVec 16

/-- A block: 16 bytes; its 4 by 4 view is row-major, the cell at row r and column c is byte 4*r + c (00_scope.md R14).
The key matrix and the timestamp string have the same size (R12). -/
abbrev Block := Vector Byte 16

/-- One ciphertext block as 32 character codes (10_state.md R25). -/
abbrev HexChars := Vector Byte 32

/-- A 256-bit digest, its first byte first (42_key_derivation.md R111). -/
abbrev Digest := Vector Byte 32

end Sys2Proof
end

