-- ==== Sys2Proof/Config.lean ====
section
/-! DEFINITION. What is fixed for one machine and left OPEN by the spec (00_scope.md R7 to R11, 92_eei_decisions.md section 2), and the environment's draws (10_state.md R32, R33), in one record; the machine's own record is opaque. -/

namespace Sys2Proof

/-- The configuration record: the six OPEN parameters, then the two draws.
Each field's TYPE carries the constraint the spec puts on the parameter, so that every value of the record is a legal one.
DEDUCED (log 3, safe). -/
structure Config where
  /-- `SBOX`, a bijection on bytes; `INV_SBOX` is its inverse (00_scope.md R7). -/
  sbox : Byte ≃ Byte
  /-- `PERM`, a bijection on the 16 positions; `INV_PERM` is its inverse (00_scope.md R8). -/
  perm : Fin 16 ≃ Fin 16
  /-- `HASH256`, a function of its argument alone (00_scope.md R9). -/
  hash256 : List Byte → Digest
  /-- One punctuation byte of `PAD_ALPHABET`, by its place among the 32 of ASCII: the alphabet has "some punctuation"
(00_scope.md R10). PRESUMED (log 16). -/
  padPunct : Fin 32
  /-- What else `PAD_ALPHABET` holds beside the letters, the digits and that byte: R10 says what the alphabet contains, not what it
lacks (log 16). -/
  padRest : List Byte
  /-- `MAX_BLOCKS` less one, so that 1 ≤ MAX_BLOCKS ≤ 1024 (00_scope.md R11). -/
  maxBlocksPred : Fin 1024
  /-- `PW_MAX` less one, so that 1 ≤ PW_MAX ≤ 256 (00_scope.md R11). -/
  pwMaxPred : Fin 256
  /-- What `NOW` shows at its n-th observation: a free value, one draw of 16 bytes each (10_state.md R32; log 4, safe). -/
  now : Nat → Block
  /-- Which element of `PAD_ALPHABET` the n-th filler draw takes, modulo the alphabet's size: a free value
  (10_state.md R33; log 5, safe). -/
  filler : Nat → Nat
deriving Inhabited

namespace Config

/-- The configuration of THE machine: no body, so nothing about any parameter or draw can be evaluated or proved beyond what
its type says (00_scope.md section 4; log 3). -/
opaque engine : Config

/-- `MAX_BLOCKS` (00_scope.md R11). -/
def maxBlocks (c : Config) : Nat := c.maxBlocksPred.val + 1

/-- `PW_MAX` (00_scope.md R11). -/
def pwMax (c : Config) : Nat := c.pwMaxPred.val + 1

/-- The number of bytes of `MSG` (10_state.md R31). -/
def msgSize (c : Config) : Nat := 16 * c.maxBlocks

/-- The number of bytes of `CT` (10_state.md R31). -/
def ctSize (c : Config) : Nat := 32 * c.maxBlocks

end Config
end Sys2Proof
end

