-- ==== Sys2Proof/Syntax.lean ====
section
/-! DEFINITION. The syntax: the 13 commands (30_encoding.md R72), the fields of a command byte (R71), the host's bus operations (20_memory.md R50, R51; 70_reset_and_hazards.md R210) and the host script notation (30_encoding.md R79). -/

namespace Sys2Proof

/-- The engine's commands, one constructor per row of the opcode map (30_encoding.md R72). No command has an operand field
(R76). -/
inductive Instr where
  /-- 0x10, the S-box on all 16 lanes of `B` (40_sbox.md R93). -/
  | sbf
  /-- 0x11, the inverse S-box on all 16 lanes of `B` (40_sbox.md R94). -/
  | sbi
  /-- 0x20, permute the bytes of `B` (41_permutation.md R102). -/
  | prm
  /-- 0x21, undo the permutation (41_permutation.md R103). -/
  | upr
  /-- 0x30, rotate the columns of `B` by two (43_block_transform.md R131). -/
  | rot
  /-- 0x40, exclusive-or `B` with `K` (43_block_transform.md R133). -/
  | xky
  /-- 0x50, derive `K` (42_key_derivation.md R119). -/
  | kdf
  /-- 0x60, the forward block transform (43_block_transform.md R135). -/
  | bfw
  /-- 0x61, the inverse block transform (43_block_transform.md R137). -/
  | bin
  /-- 0x70, `B` to hex (44_hex_codec.md R151). -/
  | hxe
  /-- 0x71, hex to `B` (44_hex_codec.md R153). -/
  | hxd
  /-- 0x80, encode a message (45_message_codec.md R170). -/
  | enc
  /-- 0x81, decode a ciphertext (45_message_codec.md R177). -/
  | dec
deriving DecidableEq, Repr

/-- The three fields of format CMD8 (30_encoding.md R71). -/
structure CmdFields where
  /-- Bits 7:4: the unit that executes. -/
  unit : BitVec 4
  /-- Bits 3:1: must be zero. -/
  z : BitVec 3
  /-- Bit 0: 0 forward, 1 inverse. -/
  dir : BitVec 1
deriving DecidableEq, Repr

/-- One operation of the host: a bus access (20_memory.md R50, R51) or an assertion of `RESET`
(70_reset_and_hazards.md R210). -/
inductive HostOp where
  /-- `MemWrite(addr, 1, v)`. -/
  | write (addr : Addr) (v : Byte)
  /-- `MemRead(addr, 1)`. -/
  | read (addr : Addr)
  /-- The `RESET` input, outside the address map. -/
  | reset
deriving DecidableEq, Repr

/-- A step or pseudo-step of a host script (30_encoding.md R79). A string is given as the list of its character codes. -/
inductive HostStep where
  /-- `WR a, v`. -/
  | wr (a : Addr) (v : Byte)
  /-- `RD a`. -/
  | rd (a : Addr)
  /-- `CMD m`. -/
  | cmd (m : Instr)
  /-- `WAIT`. -/
  | wait
  /-- `EXPECT a, v`. -/
  | expect (a : Addr) (v : Byte)
  /-- `LDB b0 ... b15`. -/
  | ldb (bytes : List Byte)
  /-- `LDK k0 ... k15`. -/
  | ldk (bytes : List Byte)
  /-- `LDTS "s"`. -/
  | ldts (chars : List Byte)
  /-- `LDHX "s"`. -/
  | ldhx (chars : List Byte)
  /-- `LDPW "s"`. -/
  | ldpw (chars : List Byte)
  /-- `LDMSG "s"`. -/
  | ldmsg (chars : List Byte)
  /-- `LDCT "s"`. -/
  | ldct (chars : List Byte)
deriving DecidableEq, Repr

end Sys2Proof
end

