-- ==== Sys2Proof/WellFormed.lean ====
section
/-! DEFINITION. What is well formed: command fields (30_encoding.md R71, R73, R74), commands (R76), and host script steps (R79). -/

namespace Sys2Proof

/-- The fields of a legal command byte: `Z` is zero, `UNIT` is 1 to 8, and `DIR` is 0 in the units 3, 4 and 5, which have no
inverse command (30_encoding.md R71, R73). -/
def CmdFields.wf (f : CmdFields) : Bool :=
  f.z == 0 && (decide (1 ≤ f.unit.toNat) && decide (f.unit.toNat ≤ 8))
    && (f.dir == 0 || !(f.unit == 3 || f.unit == 4 || f.unit == 5))

/-- A command has no operand field that could be ill formed (30_encoding.md R76). -/
def Instr.wf : Instr → Bool
  | .sbf | .sbi | .prm | .upr | .rot | .xky | .kdf | .bfw | .bin | .hxe | .hxd | .enc | .dec => true

/-- A host script step loads exactly a register's bytes, or at most a buffer's (30_encoding.md R79, table of pseudo-steps). -/
def HostStep.wf (c : Config) : HostStep → Bool
  | .wr _ _ | .rd _ | .cmd _ | .wait | .expect _ _ => true
  | .ldb bytes | .ldk bytes | .ldts bytes => bytes.length == 16
  | .ldhx chars => chars.length == 32
  | .ldpw chars => decide (chars.length ≤ c.pwMax)
  | .ldmsg chars => decide (chars.length ≤ c.msgSize)
  | .ldct chars => decide (chars.length ≤ c.ctSize)

end Sys2Proof
end

