-- ==== Sys2Proof/Decode.lean ====
section
/-! DEFINITION. The decoder of a command byte (30_encoding.md R71 to R74, R77), total over all 256 bytes and rejecting by name, then the encoder (R72). -/

namespace Sys2Proof

/-- Why a byte is no command (30_encoding.md R73, R74). The machine raises `IllegalCommand` for each alike. -/
inductive DecodeReject where
  /-- There is no byte to decode. -/
  | noByte
  /-- The field `Z` is not zero (R71). -/
  | zNotZero
  /-- `UNIT` is 0 or 9 to 15 and selects no unit (R71). -/
  | noUnit
  /-- `DIR` is 1 in a unit that is its own inverse or has none (R73). -/
  | noInverse
deriving DecidableEq, Repr

/-- What the decoder answers. -/
inductive Decoded where
  /-- The byte is this command. -/
  | instr (i : Instr)
  /-- The byte is no command, and why. -/
  | rejected (why : DecodeReject)
deriving DecidableEq, Repr

/-- The command of a decoder's answer, if it is one. -/
def Decoded.toOption : Decoded → Option Instr
  | .instr i => some i
  | .rejected _ => none

/-- The fields `UNIT` = v[7:4], `Z` = v[3:1], `DIR` = v[0] (30_encoding.md R71). -/
def fieldsOf (v : Byte) : CmdFields :=
  { unit := v.extractLsb' 4 4, z := v.extractLsb' 1 3, dir := v.extractLsb' 0 1 }

/-- The chain of 30_encoding.md R77: `Z` first, then `UNIT` and `DIR` together. -/
def decodeFields (f : CmdFields) : Decoded :=
  if f.z ≠ 0 then .rejected .zNotZero
  else match f.unit.toNat, f.dir.toNat with
    | 1, 0 => .instr .sbf
    | 1, 1 => .instr .sbi
    | 2, 0 => .instr .prm
    | 2, 1 => .instr .upr
    | 3, 0 => .instr .rot
    | 4, 0 => .instr .xky
    | 5, 0 => .instr .kdf
    | 6, 0 => .instr .bfw
    | 6, 1 => .instr .bin
    | 7, 0 => .instr .hxe
    | 7, 1 => .instr .hxd
    | 8, 0 => .instr .enc
    | 8, 1 => .instr .dec
    | 3, 1 | 4, 1 | 5, 1 => .rejected .noInverse
    | _, _ => .rejected .noUnit

/-- Decoding a byte written to `CMD` (30_encoding.md R77). -/
def decode (v : Byte) : Decoded := decodeFields (fieldsOf v)

/-- Decoding the first command of a byte string: every command is exactly one byte (30_encoding.md R70, R75). -/
def decodeBytes : List Byte → Decoded
  | [] => .rejected .noByte
  | v :: _ => decode v

/-- The byte of a host's word: a command is one byte, its bit 0 the word's bit 0, and the bits from nbits on are zero. -/
def tableByte (nbits w : Nat) : Byte := BitVec.ofNat 8 (w % 2 ^ nbits)

/-- The command the decoder reads from a row's bits, numbered as spec/opcode_table.json numbers them. -/
def decodeTableWord (nbits w : Nat) : Option Instr := (decodeBytes [tableByte nbits w]).toOption

/-- The columns UNIT and DIR of the opcode map (30_encoding.md R72). -/
def encodeFields : Instr → CmdFields
  | .sbf => { unit := 1, z := 0, dir := 0 }
  | .sbi => { unit := 1, z := 0, dir := 1 }
  | .prm => { unit := 2, z := 0, dir := 0 }
  | .upr => { unit := 2, z := 0, dir := 1 }
  | .rot => { unit := 3, z := 0, dir := 0 }
  | .xky => { unit := 4, z := 0, dir := 0 }
  | .kdf => { unit := 5, z := 0, dir := 0 }
  | .bfw => { unit := 6, z := 0, dir := 0 }
  | .bin => { unit := 6, z := 0, dir := 1 }
  | .hxe => { unit := 7, z := 0, dir := 0 }
  | .hxd => { unit := 7, z := 0, dir := 1 }
  | .enc => { unit := 8, z := 0, dir := 0 }
  | .dec => { unit := 8, z := 0, dir := 1 }

/-- The byte made of the three fields, `UNIT` the most significant (30_encoding.md R71). -/
def byteOfFields (f : CmdFields) : Byte := f.unit ++ f.z ++ f.dir

/-- The byte of a command (30_encoding.md R72). -/
def encode (i : Instr) : Byte := byteOfFields (encodeFields i)

end Sys2Proof
end

