-- ==== Sys2Proof/Machine/State.lean ====
section
/-! DEFINITION. The state of the engine and of its host's bus (10_state.md R20 to R31), the error codes (60_exceptions.md R190), the reasons a step can stop, and the state after reset (10_state.md R38). -/

namespace Sys2Proof.Machine

/-- The six outcomes `ERR` can hold, "and no other" (60_exceptions.md R190). -/
inductive ErrCode where
  /-- 0x00: the command completed. -/
  | noError
  /-- 0x01: the byte written to `CMD` is no command (R192). -/
  | illegalCommand
  /-- 0x02: malformed hex, raised by HXD and DEC (R193). -/
  | decodingError
  /-- 0x03: a final chunk of 14 or 15 bytes, raised by ENC (R195). -/
  | paddingOverflowError
  /-- 0x04: the reconstructed suffix is not three digits, raised by DEC (R196). -/
  | padFormatError
  /-- 0x05: a length register exceeds its buffer, raised by KDF, ENC and DEC (R194). -/
  | lengthError
deriving DecidableEq, Repr

/-- Why the machine would stop with a fault: there is NO such reason. The bus has no fault response (20_memory.md R53), an
error is a code in `ERR` after which the engine is ready for the next command (60_exceptions.md R191), and "No behaviour of the
engine is left as `stuck`" (93_implementation_defined.md). -/
inductive Fault
deriving DecidableEq, Repr

/-- Why the machine declines to give a situation a meaning. -/
inductive Refusal where
  /-- Raised by an arm of `exec` for a command that has no meaning yet. Safe. No arm raises it. -/
  | notModelled (mnemonic : String)
  /-- Raised by the bus when the host makes an access other than reading `STATUS` while `BUSY` = 1: the spec does not define it and
  names the treatment `refuse` (93_implementation_defined.md U1, 70_reset_and_hazards.md R216). Safe; no run from an idle state
  reaches it (log 9). -/
  | accessWhileBusy
deriving DecidableEq, Repr

/-- A byte buffer: the bytes that differ from 0x00, by rising index (20_memory.md R63: commands reach the buffers by index; log 8). -/
abbrev Memory := List Host.Cell

/-- What a bus read returned to the host, and where (20_memory.md R50). -/
structure BusRead where
  /-- The address read. -/
  addr : Addr
  /-- The byte received. -/
  data : Byte
deriving DecidableEq, Repr

/-- A location of the address map (20_memory.md R52). -/
inductive Loc where
  /-- `CMD`. -/
  | cmd
  /-- `STATUS`, read-only. -/
  | status
  /-- `ERR`, read-only. -/
  | err
  /-- `MLEN_LO`. -/
  | mlenLo
  /-- `MLEN_HI`. -/
  | mlenHi
  /-- `CTLEN_LO`. -/
  | ctlenLo
  /-- `CTLEN_HI`. -/
  | ctlenHi
  /-- `PWLEN_LO`. -/
  | pwlenLo
  /-- `PWLEN_HI`. -/
  | pwlenHi
  /-- `B[i]`. -/
  | b (i : Fin 16)
  /-- `K[i]`. -/
  | k (i : Fin 16)
  /-- `TS[i]`. -/
  | ts (i : Fin 16)
  /-- `NOW[i]`, read-only, an input. -/
  | now (i : Fin 16)
  /-- `HX[i]`. -/
  | hx (i : Fin 32)
  /-- `PW[i]`, i < PW_MAX. -/
  | pw (i : Nat)
  /-- `MSG[i]`, i < 16*MAX_BLOCKS. -/
  | msg (i : Nat)
  /-- `CT[i]`, i < 32*MAX_BLOCKS. -/
  | ct (i : Nat)
  /-- A reserved address, or a buffer index at or above the buffer's size (20_memory.md R53). -/
  | reserved
deriving DecidableEq, Repr

/-- The state: the engine's registers and buffers (10_state.md R20), then the model's own fields for the host and the draws. -/
structure State where
  /-- `B`, the block register (10_state.md R21). -/
  b : Block
  /-- `K`, the key-matrix register (R22, R23). -/
  k : Block
  /-- `TS`, the timestamp register (R24). -/
  ts : Block
  /-- `HX`, the hex register (R25). -/
  hx : HexChars
  /-- `CMD`, the last byte written to it (R26). -/
  cmd : Byte
  /-- `STATUS` bit 0, `BUSY`; bits 7:1 are hardwired 0 (R27; log 7). -/
  busy : Bool
  /-- `ERR`, the outcome of the last command (R28). -/
  err : ErrCode
  /-- `MLEN` (R29). -/
  mlen : Half
  /-- `CTLEN` (R29). -/
  ctlen : Half
  /-- `PWLEN` (R29). -/
  pwlen : Half
  /-- `PW`, PW_MAX bytes (R31). -/
  pw : Memory
  /-- `MSG`, 16*MAX_BLOCKS bytes (R31). -/
  msg : Memory
  /-- `CT`, 32*MAX_BLOCKS bytes (R31). -/
  ct : Memory
  /-- The model's own: the host's operations not yet issued, the next one first (20_memory.md R59; log 1). -/
  script : List HostOp
  /-- The model's own: what the host's reads returned, the latest first (20_memory.md R50; log 6). -/
  reads : List BusRead
  /-- The model's own: how many times `NOW` has been observed (10_state.md R32; log 4). -/
  nowDraws : Nat
  /-- The model's own: how many filler bytes have been drawn (10_state.md R33; log 5). -/
  fillerDraws : Nat
deriving DecidableEq, Repr

/-- The state after `Reset`: all zero, idle, no error (10_state.md R38, 70_reset_and_hazards.md R211).
The four fields of the model's own are empty or zero: DESIGN CHOICE (log 2). -/
def State.reset : State :=
  { b := Vector.replicate 16 0, k := Vector.replicate 16 0, ts := Vector.replicate 16 0, hx := Vector.replicate 32 0
    cmd := 0, busy := false, err := .noError
    mlen := 0, ctlen := 0, pwlen := 0
    pw := [], msg := [], ct := []
    script := [], reads := [], nowDraws := 0, fillerDraws := 0 }

end Sys2Proof.Machine
end

