-- ==== Sys2Proof/Machine/Flags.lean ====
section
/-! DEFINITION. The engine has no condition codes (10_state.md R30); what a host reads in their place are the bytes of `ERR` (60_exceptions.md R190) and of `STATUS` (10_state.md R27). -/

namespace Sys2Proof.Machine

/-- The byte of an error code (60_exceptions.md R190). -/
def ErrCode.code : ErrCode → Byte
  | .noError => 0x00
  | .illegalCommand => 0x01
  | .decodingError => 0x02
  | .paddingOverflowError => 0x03
  | .padFormatError => 0x04
  | .lengthError => 0x05

/-- `STATUS`: bit 0 is `BUSY`, bits 7:1 read as 0 (10_state.md R27). -/
def statusByte (busy : Bool) : Byte := if busy then 0x01 else 0x00

end Sys2Proof.Machine
end

