-- ==== Sys2Proof/Machine/Ops.lean ====
section
/-! DEFINITION. The shared operations: reading and writing a buffer (20_memory.md R63), accepting a command (10_state.md R26, R27), ending one and raising an error (60_exceptions.md R191), and the draws (10_state.md R32, R33). -/

namespace Sys2Proof.Machine

/-! Buffers -/

/-- What a byte never written reads as: the reset contents (10_state.md R38). -/
def Memory.unlisted : Byte := 0x00

/-- The canonical form: indices strictly rising, and no entry equal to what an unlisted index reads as. -/
abbrev Memory.wf (m : Memory) : Prop :=
  m.Pairwise (fun x y => x.1 < y.1) ∧ ∀ x ∈ m, x.2 ≠ Memory.unlisted

/-- Every listed index is below the buffer's size. -/
abbrev Memory.within (m : Memory) (size : Nat) : Prop := ∀ x ∈ m, x.1 < size

/-- Reading byte i of a buffer. -/
def Memory.load : Memory → Nat → Byte
  | [], _ => Memory.unlisted
  | (j, w) :: m, i => if j = i then w else Memory.load m i

/-- Writing byte i of a buffer, keeping the canonical form. -/
def Memory.store : Memory → Nat → Byte → Memory
  | [], i, v => if v = Memory.unlisted then [] else [(i, v)]
  | (j, w) :: m, i, v =>
    if j < i then (j, w) :: Memory.store m i v
    else if j = i then (if v = Memory.unlisted then m else (i, v) :: m)
    else (if v = Memory.unlisted then (j, w) :: m else (i, v) :: (j, w) :: m)

/-- Writing a byte string at ascending indices from base, element 0 first (20_memory.md R56). -/
def Memory.storeAll : Memory → Nat → List Byte → Memory
  | m, _, [] => m
  | m, base, v :: vs => Memory.storeAll (Memory.store m base v) (base + 1) vs

/-- The n bytes of a buffer from base on. -/
def Memory.loadAll (m : Memory) (base n : Nat) : List Byte :=
  (List.range n).map fun i => Memory.load m (base + i)

/-! Beginning and ending a command -/

/-- A command byte is accepted: it is stored in `CMD`, and `BUSY` is 1 until the command ends (10_state.md R26, R27). -/
def accept (v : Byte) (s : State) : State := { s with cmd := v, busy := true }

/-- A command ends with an outcome: `ERR` is written and `BUSY` returns to 0 (60_exceptions.md R191). -/
def endCommand (e : ErrCode) (s : State) : State := { s with err := e, busy := false }

/-- `ERR <- 0x00` as the last act of a command that does not raise (60_exceptions.md R191). -/
def complete (s : State) : State := endCommand .noError s

/-- `raise E`: the error's code goes to `ERR`, the command ends, and none of its remaining steps is performed; nothing else
happens (60_exceptions.md R191). This is the engine's whole exception entry: there is no control transfer, no saved state, no mode and
no return (R202, R203). -/
def raise (e : ErrCode) (s : State) : State := endCommand e s

/-- A command that transforms the block register alone: all 16 bytes are read before any is written. -/
def transformB (f : Block → Block) (s : State) : State := complete { s with b := f s.b }

/-- `K` set to 16 zero bytes (45_message_codec.md R184). -/
def clearK (s : State) : State := { s with k := Vector.replicate 16 0 }

/-! Draws -/

/-- The 32 punctuation characters of ASCII in rising order: 0x21 to 0x2F, 0x3A to 0x40, 0x5B to 0x60, 0x7B to 0x7E. PRESUMED
(log 16): R10 asks for punctuation and does not list it. -/
def punctuation (i : Fin 32) : Byte :=
  if i.val < 15 then BitVec.ofNat 8 (0x21 + i.val)
  else if i.val < 22 then BitVec.ofNat 8 (0x3A + (i.val - 15))
  else if i.val < 28 then BitVec.ofNat 8 (0x5B + (i.val - 22))
  else BitVec.ofNat 8 (0x7B + (i.val - 28))

/-- `PAD_ALPHABET`: the 52 ASCII letters, the 10 ASCII digits, the machine's one punctuation byte at least, and what else it holds
(00_scope.md R10). -/
def padAlphabet (c : Config) : List Byte :=
  (List.range 26).map (fun i => BitVec.ofNat 8 (0x41 + i)) ++ (List.range 26).map (fun i => BitVec.ofNat 8 (0x61 + i))
    ++ (List.range 10).map (fun i => BitVec.ofNat 8 (0x30 + i)) ++ punctuation c.padPunct :: c.padRest

/-- The n-th filler draw: some element of `PAD_ALPHABET`, the environment's choice (10_state.md R33; log 5). -/
def fillerByte (c : Config) (n : Nat) : Byte :=
  ((padAlphabet c)[c.filler n % (padAlphabet c).length]?).getD (punctuation c.padPunct)

/-- `TS <- NOW`, one draw of all 16 bytes at one instant (45_message_codec.md R167; log 4). -/
def captureNow (c : Config) (s : State) : State :=
  { s with ts := c.now s.nowDraws, nowDraws := s.nowDraws + 1 }

end Sys2Proof.Machine
end

