-- ==== Sys2Proof/Machine/Operands.lean ====
section
/-! DEFINITION. The implicit operands of the commands (30_encoding.md R76) and the character codes they are read and written by (00_scope.md R13, R15). -/

namespace Sys2Proof.Machine

/-! Nibbles and character codes -/

/-- The high nibble of a byte, `x[7:4]` (00_scope.md R13). -/
def hiNibble (x : Byte) : Nat := x.toNat / 16

/-- The low nibble of a byte, `x[3:0]` (00_scope.md R13). -/
def loNibble (x : Byte) : Nat := x.toNat % 16

/-- `HEXCHAR(n)` for n in [0, 15], lowercase (00_scope.md R15). -/
def hexChar (n : Nat) : Byte := if n ≤ 9 then BitVec.ofNat 8 (0x30 + n) else BitVec.ofNat 8 (0x61 + (n - 10))

/-- `HEXVAL(c)`: digits, small and capital letters; none for every other byte (00_scope.md R15, 44_hex_codec.md R152). -/
def hexVal (c : Byte) : Option Nat :=
  let x := c.toNat
  if 0x30 ≤ x ∧ x ≤ 0x39 then some (x - 0x30)
  else if 0x61 ≤ x ∧ x ≤ 0x66 then some (x - 0x61 + 10)
  else if 0x41 ≤ x ∧ x ≤ 0x46 then some (x - 0x41 + 10)
  else none

/-- `DIGIT(d)` for d in [0, 9] (00_scope.md R15). -/
def digit (d : Nat) : Byte := BitVec.ofNat 8 (0x30 + d)

/-- `DIGITVAL(c)` (00_scope.md R15). -/
def digitVal (c : Byte) : Option Nat :=
  let x := c.toNat
  if 0x30 ≤ x ∧ x ≤ 0x39 then some (x - 0x30) else none

/-- `Dec3(n)`: three decimal digits, the most significant first (45_message_codec.md R166). -/
def dec3 (n : Nat) : Vector Byte 3 := #v[digit (n / 100), digit (n / 10 % 10), digit (n % 10)]

/-! The buffers' contents as the length registers bound them -/

/-- `PW[0 .. PWLEN-1]` (10_state.md R31). -/
def password (s : State) : List Byte := s.pw.loadAll 0 s.pwlen.toNat

/-- `MSG[0 .. MLEN-1]` (10_state.md R31). -/
def message (s : State) : List Byte := s.msg.loadAll 0 s.mlen.toNat

/-- `CT[0 .. CTLEN-1]` (10_state.md R31). -/
def ciphertext (s : State) : List Byte := s.ct.loadAll 0 s.ctlen.toNat

/-- The password is longer than its buffer (60_exceptions.md R194). -/
abbrev passwordTooLong (c : Config) (s : State) : Prop := c.pwMax < s.pwlen.toNat

end Sys2Proof.Machine
end

