-- ==== Sys2Proof/Machine/Bus.lean ====
section
/-! DEFINITION. The host bus: the address map (20_memory.md R52, R53), reads and writes (R50, R51), RESET (70_reset_and_hazards.md R210, R211), and the host's next turn (20_memory.md R59). -/

namespace Sys2Proof.Machine

/-- A buffer's location, where the index is below the buffer's size; reserved otherwise (20_memory.md R53). -/
def bufferLoc (mk : Nat → Loc) (size i : Nat) : Loc := if i < size then mk i else .reserved

/-- The map below 0x0080: the control and length registers and the data registers' windows, the same for every configuration
(20_memory.md R52). A register byte's index is the low bits of its address. -/
def registerLoc (n : Nat) : Loc :=
  if n = 0x0000 then .cmd
  else if n = 0x0001 then .status
  else if n = 0x0002 then .err
  else if n = 0x0004 then .mlenLo
  else if n = 0x0005 then .mlenHi
  else if n = 0x0006 then .ctlenLo
  else if n = 0x0007 then .ctlenHi
  else if n = 0x0008 then .pwlenLo
  else if n = 0x0009 then .pwlenHi
  else if 0x0010 ≤ n ∧ n ≤ 0x001F then .b (Fin.ofNat 16 n)
  else if 0x0020 ≤ n ∧ n ≤ 0x002F then .k (Fin.ofNat 16 n)
  else if 0x0030 ≤ n ∧ n ≤ 0x003F then .ts (Fin.ofNat 16 n)
  else if 0x0040 ≤ n ∧ n ≤ 0x004F then .now (Fin.ofNat 16 n)
  else if 0x0060 ≤ n ∧ n ≤ 0x007F then .hx (Fin.ofNat 32 n)
  else .reserved

/-- The map from 0x0080 on: the buffers' windows, each as long as the configuration makes the buffer (20_memory.md R52, R53). -/
def windowLoc (c : Config) (n : Nat) : Loc :=
  if 0x8000 ≤ n then bufferLoc .ct c.ctSize (n - 0x8000)
  else if 0x4000 ≤ n then bufferLoc .msg c.msgSize (n - 0x4000)
  else if 0x0200 ≤ n then .reserved
  else if 0x0100 ≤ n then bufferLoc .pw c.pwMax (n - 0x0100)
  else .reserved

/-- The address map (20_memory.md R52). -/
def locate (c : Config) (a : Addr) : Loc :=
  if a.toNat < 0x0080 then registerLoc a.toNat else windowLoc c a.toNat

/-- The low byte of a length register (20_memory.md R55). -/
def loByte (w : Half) : Byte := w.extractLsb' 0 8

/-- The high byte of a length register (20_memory.md R55). -/
def hiByte (w : Half) : Byte := w.extractLsb' 8 8

/-- A length register with a new low byte; the high byte stays (70_reset_and_hazards.md R219). -/
def setLo (w : Half) (v : Byte) : Half := hiByte w ++ v

/-- A length register with a new high byte; the low byte stays (70_reset_and_hazards.md R219). -/
def setHi (w : Half) (v : Byte) : Half := v ++ loByte w

/-- The byte a location shows (20_memory.md R50, R52, R53). -/
def locRead (c : Config) (s : State) : Loc → Byte
  | .cmd => s.cmd
  | .status => statusByte s.busy
  | .err => s.err.code
  | .mlenLo => loByte s.mlen
  | .mlenHi => hiByte s.mlen
  | .ctlenLo => loByte s.ctlen
  | .ctlenHi => hiByte s.ctlen
  | .pwlenLo => loByte s.pwlen
  | .pwlenHi => hiByte s.pwlen
  | .b i => s.b[i]
  | .k i => s.k[i]
  | .ts i => s.ts[i]
  | .now i => (c.now s.nowDraws)[i]
  | .hx i => s.hx[i]
  | .pw i => s.pw.load i
  | .msg i => s.msg.load i
  | .ct i => s.ct.load i
  | .reserved => 0x00

/-- A location takes a byte: read-only and reserved locations ignore it (20_memory.md R51, R53). A write to `CMD` also executes a
command; that is `hostTurn`'s to hand on. -/
def locWrite (v : Byte) (s : State) : Loc → State
  | .cmd => { s with cmd := v }
  | .status | .err | .now _ | .reserved => s
  | .mlenLo => { s with mlen := setLo s.mlen v }
  | .mlenHi => { s with mlen := setHi s.mlen v }
  | .ctlenLo => { s with ctlen := setLo s.ctlen v }
  | .ctlenHi => { s with ctlen := setHi s.ctlen v }
  | .pwlenLo => { s with pwlen := setLo s.pwlen v }
  | .pwlenHi => { s with pwlen := setHi s.pwlen v }
  | .b i => { s with b := s.b.set i v }
  | .k i => { s with k := s.k.set i v }
  | .ts i => { s with ts := s.ts.set i v }
  | .hx i => { s with hx := s.hx.set i v }
  | .pw i => { s with pw := s.pw.store i v }
  | .msg i => { s with msg := s.msg.store i v }
  | .ct i => { s with ct := s.ct.store i v }

/-- The environment's side of a read: each read of the `NOW` window is an observation of the input (10_state.md R32; log 4). -/
def countDraw (s : State) : Loc → State
  | .now _ => { s with nowDraws := s.nowDraws + 1 }
  | _ => s

/-- `MemRead(a, 1)`: the host receives the byte; no state of the engine changes (20_memory.md R50). -/
def busRead (c : Config) (a : Addr) (s : State) : State :=
  let l := locate c a
  { countDraw s l with reads := { addr := a, data := locRead c s l } :: s.reads }

/-- `Reset`: every piece of the engine's state takes its reset value (70_reset_and_hazards.md R211). The host's own fields and the draw
counters are not the engine's and stay (log 2). -/
def resetEngine (s : State) : State :=
  { State.reset with script := s.script, reads := s.reads, nowDraws := s.nowDraws, fillerDraws := s.fillerDraws }

/-- What the host's next operation comes to: a finished step, or a command byte accepted into `CMD`. -/
inductive HostTurn where
  /-- The operation is done. -/
  | settled (o : Host.Outcome State Fault Refusal)
  /-- The byte v was accepted as a command and is to be executed on s. -/
  | command (v : Byte) (s : State)

/-- While `BUSY` = 1 the host may read `STATUS` and nothing else (70_reset_and_hazards.md R216; log 9). -/
def busyAllows (c : Config) : HostOp → Bool
  | .reset => true
  | .read a => locate c a == .status
  | .write _ _ => false

/-- The host's next operation, on a state from whose script it has been taken (20_memory.md R50, R51; 10_state.md R26). -/
def hostOp (c : Config) (op : HostOp) (s : State) : HostTurn :=
  if s.busy && !busyAllows c op then .settled (.refused .accessWhileBusy)
  else match op with
    | .reset => .settled (.next (resetEngine s))
    | .read a => .settled (.next (busRead c a s))
    | .write a v =>
      match locate c a with
      | .cmd => .command v (accept v s)
      | l => .settled (.next (locWrite v s l))

/-- The next operation of the host's script; with none the engine stays idle (60_exceptions.md R208; log 1, log 10). -/
def hostTurn (c : Config) (s : State) : HostTurn :=
  match s.script with
  | [] => .settled (.next s)
  | op :: rest => hostOp c op { s with script := rest }

end Sys2Proof.Machine
end

