-- ==== Sys2Proof/Machine/FixedPermutation.lean ====
section
/-! DEFINITION. The FixedPermutation unit: PRM and UPR (41_permutation.md). -/

namespace Sys2Proof.Machine

/-- `Permute(b)`: output position i takes the byte of input position `PERM[i]` (the gather reading, 41_permutation.md R100). -/
def permute (c : Config) (b : Block) : Block := Vector.ofFn fun i => b[c.perm i]

/-- `Unpermute(p)`: position j takes the byte of position `INV_PERM[j]` (41_permutation.md R101). -/
def unpermute (c : Config) (p : Block) : Block := Vector.ofFn fun j => p[c.perm.symm j]

/-- PRM (41_permutation.md R102). -/
def cmdPrm (c : Config) (s : State) : State := transformB (permute c) s

/-- UPR (41_permutation.md R103). -/
def cmdUpr (c : Config) (s : State) : State := transformB (unpermute c) s

/-- The meaning of PRM on the machine's configuration. -/
def execPrm (s : State) : Host.Outcome State Fault Refusal := .next (cmdPrm Config.engine s)

/-- The meaning of UPR on the machine's configuration. -/
def execUpr (s : State) : Host.Outcome State Fault Refusal := .next (cmdUpr Config.engine s)

end Sys2Proof.Machine
end

