-- ==== Sys2Proof/Machine/SubstitutionBox.lean ====
section
/-! DEFINITION. The SubstitutionBox unit: SBF and SBI (40_sbox.md). -/

namespace Sys2Proof.Machine

/-- `SubFwd(x) = SBOX[x]`; the ROM is addressed by the byte itself (40_sbox.md R90, R91). -/
def subFwd (c : Config) (x : Byte) : Byte := c.sbox x

/-- `SubInv(y) = INV_SBOX[y]` (40_sbox.md R92). -/
def subInv (c : Config) (y : Byte) : Byte := c.sbox.symm y

/-- The forward S-box on every cell independently (40_sbox.md R93, R95). -/
def subAll (c : Config) (b : Block) : Block := b.map (subFwd c)

/-- The inverse S-box on every cell independently (40_sbox.md R94, R95). -/
def subInvAll (c : Config) (b : Block) : Block := b.map (subInv c)

/-- SBF (40_sbox.md R93). -/
def cmdSbf (c : Config) (s : State) : State := transformB (subAll c) s

/-- SBI (40_sbox.md R94). -/
def cmdSbi (c : Config) (s : State) : State := transformB (subInvAll c) s

/-- The meaning of SBF on the machine's configuration. -/
def execSbf (s : State) : Host.Outcome State Fault Refusal := .next (cmdSbf Config.engine s)

/-- The meaning of SBI on the machine's configuration. -/
def execSbi (s : State) : Host.Outcome State Fault Refusal := .next (cmdSbi Config.engine s)

end Sys2Proof.Machine
end

