-- ==== Sys2Proof/Machine/BlockTransform.lean ====
section
/-! DEFINITION. The BlockTransform unit: ROT, XKY, BFW and BIN (43_block_transform.md). -/

namespace Sys2Proof.Machine

/-- `RotCols(m)`: within each row, column c takes the cell of column (c + 2) mod 4 (43_block_transform.md R130). -/
def rotCols (m : Block) : Block :=
  Vector.ofFn fun i => m[4 * (i.val / 4) + (i.val % 4 + 2) % 4]'(by omega)

/-- `XorKey(b, k)`: every cell with the corresponding cell of the key (43_block_transform.md R133). -/
def xorKey (b k : Block) : Block := Vector.ofFn fun i => b[i] ^^^ k[i]

/-- `Forward(b, k)`: permute, substitute, rotate, exclusive-or (43_block_transform.md R135, R136). -/
def forward (c : Config) (b k : Block) : Block := xorKey (rotCols (subAll c (permute c b))) k

/-- `Inverse(y, k)`: exclusive-or, rotate, inverse S-box, unpermute (43_block_transform.md R137). -/
def inverse (c : Config) (y k : Block) : Block := unpermute c (subInvAll c (rotCols (xorKey y k)))

/-- ROT (43_block_transform.md R131). -/
def cmdRot (s : State) : State := transformB rotCols s

/-- XKY (43_block_transform.md R133). -/
def cmdXky (s : State) : State := transformB (fun b => xorKey b s.k) s

/-- BFW (43_block_transform.md R135). -/
def cmdBfw (c : Config) (s : State) : State := transformB (fun b => forward c b s.k) s

/-- BIN (43_block_transform.md R137). -/
def cmdBin (c : Config) (s : State) : State := transformB (fun b => inverse c b s.k) s

/-- The meaning of ROT. -/
def execRot (s : State) : Host.Outcome State Fault Refusal := .next (cmdRot s)

/-- The meaning of XKY. -/
def execXky (s : State) : Host.Outcome State Fault Refusal := .next (cmdXky s)

/-- The meaning of BFW on the machine's configuration. -/
def execBfw (s : State) : Host.Outcome State Fault Refusal := .next (cmdBfw Config.engine s)

/-- The meaning of BIN on the machine's configuration. -/
def execBin (s : State) : Host.Outcome State Fault Refusal := .next (cmdBin Config.engine s)

end Sys2Proof.Machine
end

