-- ==== Sys2Proof/Machine/HexCodec.lean ====
section
/-! DEFINITION. The hex codec unit: HXE and HXD (44_hex_codec.md). -/

namespace Sys2Proof.Machine

/-- `HexEnc(b)`: byte i gives characters 2*i and 2*i + 1, the high nibble's first (44_hex_codec.md R150). -/
def hexEnc (b : Block) : HexChars :=
  Vector.ofFn fun n =>
    if n.val % 2 = 0 then hexChar (hiNibble (b[n.val / 2]'(by omega))) else hexChar (loNibble (b[n.val / 2]'(by omega)))

/-- `HexDec(x)`: defined when all 32 bytes are hex digits (44_hex_codec.md R152). -/
def hexDec (x : HexChars) : Option Block :=
  if x.all (fun ch => (hexVal ch).isSome) then
    some (Vector.ofFn fun i =>
      BitVec.ofNat 8 (16 * (hexVal (x[2 * i.val]'(by omega))).getD 0 + (hexVal (x[2 * i.val + 1]'(by omega))).getD 0))
  else none

/-- HXE (44_hex_codec.md R151). -/
def cmdHxe (s : State) : State := complete { s with hx := hexEnc s.b }

/-- HXD: all 32 characters are checked before any byte of `B` is written (44_hex_codec.md R153). -/
def cmdHxd (s : State) : State :=
  match hexDec s.hx with
  | none => raise .decodingError s
  | some b => complete { s with b := b }

/-- The meaning of HXE. -/
def execHxe (s : State) : Host.Outcome State Fault Refusal := .next (cmdHxe s)

/-- The meaning of HXD. -/
def execHxd (s : State) : Host.Outcome State Fault Refusal := .next (cmdHxd s)

end Sys2Proof.Machine
end

