-- ==== Sys2Proof/Machine/KeyDerivation.lean ====
section
/-! DEFINITION. The KeyMatrixDeriver unit: KDF (42_key_derivation.md). -/

namespace Sys2Proof.Machine

/-- A digest read as a 256-bit unsigned integer, its first byte the most significant (42_key_derivation.md R112). -/
def digestInt (d : Digest) : Nat := d.toList.foldl (fun acc x => 256 * acc + x.toNat) 0

/-- A 256-bit integer as 64 lowercase hex characters, most significant digit first, leading zeros kept, each as its code point
(42_key_derivation.md R114, R115). -/
def hexString (x : Nat) : Vector Byte 64 := Vector.ofFn fun n => hexChar (x / 16 ^ (63 - n.val) % 16)

/-- `Derive(pw, ts)`: both arguments hashed, the digests' integers exclusive-ored, the result's hex characters, and of these
the 16 at positions i mod 64 (42_key_derivation.md R110 to R117). -/
def derive (c : Config) (pw ts : List Byte) : Block :=
  let h := hexString (digestInt (c.hash256 pw) ^^^ digestInt (c.hash256 ts))
  Vector.ofFn fun i => h[i.val % 64]'(Nat.mod_lt _ (by decide))

/-- `K <- Derive(PW[0 .. PWLEN-1], TS[0 .. 15])`. -/
def deriveK (c : Config) (s : State) : State := { s with k := derive c (password s) s.ts.toList }

/-- KDF (42_key_derivation.md R119). -/
def cmdKdf (c : Config) (s : State) : State :=
  if passwordTooLong c s then raise .lengthError s else complete (deriveK c s)

/-- The meaning of KDF on the machine's configuration. -/
def execKdf (s : State) : Host.Outcome State Fault Refusal := .next (cmdKdf Config.engine s)

end Sys2Proof.Machine
end

