-- ==== Sys2Proof/Machine/MessageCodec.lean ====
section
/-! DEFINITION. The MessageCodec unit: ENC and DEC (45_message_codec.md). -/

namespace Sys2Proof.Machine

/-! Chunking and padding -/

/-- The number of chunks of a message of L bytes: at least one (45_message_codec.md R162, R163). -/
def blockCount (len : Nat) : Nat := max 1 ((len + 15) / 16)

/-- The length n of the final chunk, 0 to 16 (45_message_codec.md R163). -/
def finalLen (len : Nat) : Nat := len - 16 * (blockCount len - 1)

/-- Chunk j when it has 16 bytes: used as it is (45_message_codec.md R164). -/
def fullChunk (s : State) (j : Nat) : Block := Vector.ofFn fun i => s.msg.load (16 * j + i.val)

/-- `Pad(chunk, n)` of the final chunk j of n ≤ 13 bytes: the chunk, filler at positions n to 12, then `Dec3(n)`
(45_message_codec.md R164). The filler bytes are drawn in ascending position, as the pseudocode of R170 draws them. -/
def padChunk (c : Config) (s : State) (j n : Nat) : Block :=
  Vector.ofFn fun i =>
    if i.val < n then s.msg.load (16 * j + i.val)
    else if h : i.val < 13 then fillerByte c (s.fillerDraws + (i.val - n))
    else (dec3 n)[i.val - 13]'(by omega)

/-! ENC -/

/-- Chunk j of a message of `nblk` chunks with a final chunk of n bytes, as a block (45_message_codec.md R164, R169). -/
def chunkBlock (c : Config) (nblk n : Nat) (s : State) (j : Nat) : Block :=
  if j + 1 < nblk ∨ n = 16 then fullChunk s j else padChunk c s j n

/-- How many filler bytes chunk j draws: `13 - n` for a short final chunk, none otherwise (45_message_codec.md R164). -/
def chunkDraws (nblk n j : Nat) : Nat := if j + 1 < nblk ∨ n = 16 then 0 else 13 - n

/-- Chunk j goes to `B`, and the filler bytes it draws are counted (45_message_codec.md R170). -/
def loadChunk (c : Config) (nblk n j : Nat) (s : State) : State :=
  { s with b := chunkBlock c nblk n s j, fillerDraws := s.fillerDraws + chunkDraws nblk n j }

/-- The transformed block to hex, and its 32 characters to `CT` (45_message_codec.md R169). -/
def emitBlock (j : Nat) (s : State) : State :=
  { s with hx := hexEnc s.b, ct := s.ct.storeAll (32 * j) (hexEnc s.b).toList }

/-- One turn of ENC's loop (45_message_codec.md R170). -/
def encBlock (c : Config) (nblk n : Nat) (s : State) (j : Nat) : State :=
  let s := loadChunk c nblk n j s
  emitBlock j { s with b := forward c s.b s.k }

/-- ENC's loop over the chunks, in ascending order. -/
def encBlocks (c : Config) (nblk n : Nat) (s : State) : State := (List.range nblk).foldl (encBlock c nblk n) s

/-- ENC after its checks (45_message_codec.md R167 to R170). -/
def encodeMessage (c : Config) (s : State) : State :=
  let len := s.mlen.toNat
  let nblk := blockCount len
  let s := encBlocks c nblk (finalLen len) (deriveK c (captureNow c s))
  complete (clearK { s with ctlen := BitVec.ofNat 16 (32 * nblk) })

/-- ENC: `LengthError` first, then `PaddingOverflowError`, both before anything is written (45_message_codec.md R170). -/
def cmdEnc (c : Config) (s : State) : State :=
  let n := finalLen s.mlen.toNat
  if c.msgSize < s.mlen.toNat ∨ passwordTooLong c s then raise .lengthError s
  else if n = 14 ∨ n = 15 then raise .paddingOverflowError s
  else encodeMessage c s

/-- The meaning of ENC on the machine's configuration. -/
def execEnc (s : State) : Host.Outcome State Fault Refusal := .next (cmdEnc Config.engine s)

/-! DEC -/

/-- The ciphertext is malformed: odd length, a character that is no hex digit, or a length that is no multiple of 32
(45_message_codec.md R172). -/
def malformedHex (s : State) : Bool :=
  s.ctlen.toNat % 2 == 1 || !(ciphertext s).all (fun ch => (hexVal ch).isSome) || s.ctlen.toNat % 32 != 0

/-- The 32 characters of ciphertext block j. -/
def hexChunk (s : State) (j : Nat) : HexChars := Vector.ofFn fun i => s.ct.load (32 * j + i.val)

/-- `B <- HexDec(HX)`; it cannot fail, since DEC has checked every character (45_message_codec.md R177). -/
def hexToB (s : State) : State := { s with b := (hexDec s.hx).getD s.b }

/-- One turn of DEC's loop (45_message_codec.md R173, R177). -/
def decBlock (c : Config) (s : State) (j : Nat) : State :=
  let s := hexToB { s with hx := hexChunk s j }
  let x := inverse c s.b s.k
  { s with b := x, msg := s.msg.storeAll (16 * j) x.toList }

/-- DEC's loop over the blocks, in ascending order. -/
def decBlocks (c : Config) (nblk : Nat) (s : State) : State := (List.range nblk).foldl (decBlock c) s

/-- The number N that the last three of the first `len` bytes of a buffer spell in decimal, if there are three bytes and all are digits
(45_message_codec.md R174, R180). -/
def suffixValue (m : Memory) (len : Nat) : Option Nat :=
  if len < 3 then none
  else match digitVal (m.load (len - 3)), digitVal (m.load (len - 2)), digitVal (m.load (len - 1)) with
    | some d2, some d1, some d0 => some (100 * d2 + 10 * d1 + d0)
    | _, _, _ => none

/-- The strip: once, at the end, from the last three bytes of the WHOLE reconstructed string of `len` bytes; this is the defect
that R176 requires (45_message_codec.md R174, R176, R179, R180). -/
def strip (len : Nat) (s : State) : State :=
  match suffixValue s.msg len with
  | none => raise .padFormatError { s with mlen := BitVec.ofNat 16 len }
  | some n => complete { s with mlen := BitVec.ofNat 16 (min n len) }

/-- DEC after its checks (45_message_codec.md R173, R174, R184). -/
def decodeMessage (c : Config) (s : State) : State :=
  let nblk := s.ctlen.toNat / 32
  strip (16 * nblk) (clearK (decBlocks c nblk (deriveK c s)))

/-- DEC: `LengthError` first, then `DecodingError`, both before anything is written (45_message_codec.md R177). -/
def cmdDec (c : Config) (s : State) : State :=
  if c.ctSize < s.ctlen.toNat ∨ passwordTooLong c s then raise .lengthError s
  else if malformedHex s then raise .decodingError s
  else decodeMessage c s

/-- The meaning of DEC on the machine's configuration. -/
def execDec (s : State) : Host.Outcome State Fault Refusal := .next (cmdDec Config.engine s)

end Sys2Proof.Machine
end

