-- ==== Sys2Proof/Machine/Dispatch.lean ====
section
/-! DEFINITION. One arm per command: what a command does once its byte has been accepted (30_encoding.md R77). -/

namespace Sys2Proof.Machine

def exec (i : Instr) (s : State) : Host.Outcome State Fault Refusal :=
  match i with
  | .sbf => Sys2Proof.Machine.execSbf s
  | .sbi => Sys2Proof.Machine.execSbi s
  | .prm => Sys2Proof.Machine.execPrm s
  | .upr => Sys2Proof.Machine.execUpr s
  | .rot => Sys2Proof.Machine.execRot s
  | .xky => Sys2Proof.Machine.execXky s
  | .kdf => Sys2Proof.Machine.execKdf s
  | .bfw => Sys2Proof.Machine.execBfw s
  | .bin => Sys2Proof.Machine.execBin s
  | .hxe => Sys2Proof.Machine.execHxe s
  | .hxd => Sys2Proof.Machine.execHxd s
  | .enc => Sys2Proof.Machine.execEnc s
  | .dec => Sys2Proof.Machine.execDec s

end Sys2Proof.Machine
end

