-- ==== Sys2Proof/Machine/Step.lean ====
section
/-! DEFINITION. One step: the host's next operation takes effect, and where it writes `CMD` the whole command does too (20_memory.md R59, 70_reset_and_hazards.md R215). -/

namespace Sys2Proof.Machine

/-- One step of the machine. A command byte that is none of the 13 raises `IllegalCommand` (30_encoding.md R74, R77). -/
def step (s : State) : Host.Outcome State Fault Refusal :=
  match hostTurn Config.engine s with
  | .settled o => o
  | .command v t =>
    match decode v with
    | .instr i => exec i t
    | .rejected _ => .next (raise .illegalCommand t)

/-- The state with the host's next operation a write of the command byte to `CMD`: where this machine takes its next command from
(10_state.md R30; log 1). The engine is idle there, as a host that obeys 70_reset_and_hazards.md R216 finds it. -/
def State.withFetchWord (s : State) (nbits w : Nat) : State :=
  { s with busy := false, script := .write 0x0000 (tableByte nbits w) :: s.script }

end Sys2Proof.Machine
end

