-- ==== Sys2Proof/Machine/Defaults.lean ====
section
/-! DEFINITION. The default and test instances of the OPEN parameters, marked in the spec as general knowledge or as its own: SBOX_AES (40_sbox.md section 4), PERM_T (41_permutation.md R102), SHA-256 (42_key_derivation.md section 5). PRESUMED (log 12, safe): the machine's own configuration is not these, and they serve the worked examples only. -/

namespace Sys2Proof.Machine

/-! The S-box -/

/-- A ROM of 256 bytes, 16 rows of 16 columns (40_sbox.md R90). -/
abbrev Rom := Vector (Vector Byte 16) 16

/-- A lookup: the row is the high nibble, the column the low nibble (40_sbox.md R90). -/
def romLookup (rom : Rom) (x : Byte) : Byte :=
  (rom[x.toNat / 16]'(by omega))[x.toNat % 16]'(by omega)

/-- `SBOX_AES` (40_sbox.md section 4). -/
def sboxAesRom : Rom :=
  #v[#v[0x63, 0x7c, 0x77, 0x7b, 0xf2, 0x6b, 0x6f, 0xc5, 0x30, 0x01, 0x67, 0x2b, 0xfe, 0xd7, 0xab, 0x76],
    #v[0xca, 0x82, 0xc9, 0x7d, 0xfa, 0x59, 0x47, 0xf0, 0xad, 0xd4, 0xa2, 0xaf, 0x9c, 0xa4, 0x72, 0xc0],
    #v[0xb7, 0xfd, 0x93, 0x26, 0x36, 0x3f, 0xf7, 0xcc, 0x34, 0xa5, 0xe5, 0xf1, 0x71, 0xd8, 0x31, 0x15],
    #v[0x04, 0xc7, 0x23, 0xc3, 0x18, 0x96, 0x05, 0x9a, 0x07, 0x12, 0x80, 0xe2, 0xeb, 0x27, 0xb2, 0x75],
    #v[0x09, 0x83, 0x2c, 0x1a, 0x1b, 0x6e, 0x5a, 0xa0, 0x52, 0x3b, 0xd6, 0xb3, 0x29, 0xe3, 0x2f, 0x84],
    #v[0x53, 0xd1, 0x00, 0xed, 0x20, 0xfc, 0xb1, 0x5b, 0x6a, 0xcb, 0xbe, 0x39, 0x4a, 0x4c, 0x58, 0xcf],
    #v[0xd0, 0xef, 0xaa, 0xfb, 0x43, 0x4d, 0x33, 0x85, 0x45, 0xf9, 0x02, 0x7f, 0x50, 0x3c, 0x9f, 0xa8],
    #v[0x51, 0xa3, 0x40, 0x8f, 0x92, 0x9d, 0x38, 0xf5, 0xbc, 0xb6, 0xda, 0x21, 0x10, 0xff, 0xf3, 0xd2],
    #v[0xcd, 0x0c, 0x13, 0xec, 0x5f, 0x97, 0x44, 0x17, 0xc4, 0xa7, 0x7e, 0x3d, 0x64, 0x5d, 0x19, 0x73],
    #v[0x60, 0x81, 0x4f, 0xdc, 0x22, 0x2a, 0x90, 0x88, 0x46, 0xee, 0xb8, 0x14, 0xde, 0x5e, 0x0b, 0xdb],
    #v[0xe0, 0x32, 0x3a, 0x0a, 0x49, 0x06, 0x24, 0x5c, 0xc2, 0xd3, 0xac, 0x62, 0x91, 0x95, 0xe4, 0x79],
    #v[0xe7, 0xc8, 0x37, 0x6d, 0x8d, 0xd5, 0x4e, 0xa9, 0x6c, 0x56, 0xf4, 0xea, 0x65, 0x7a, 0xae, 0x08],
    #v[0xba, 0x78, 0x25, 0x2e, 0x1c, 0xa6, 0xb4, 0xc6, 0xe8, 0xdd, 0x74, 0x1f, 0x4b, 0xbd, 0x8b, 0x8a],
    #v[0x70, 0x3e, 0xb5, 0x66, 0x48, 0x03, 0xf6, 0x0e, 0x61, 0x35, 0x57, 0xb9, 0x86, 0xc1, 0x1d, 0x9e],
    #v[0xe1, 0xf8, 0x98, 0x11, 0x69, 0xd9, 0x8e, 0x94, 0x9b, 0x1e, 0x87, 0xe9, 0xce, 0x55, 0x28, 0xdf],
    #v[0x8c, 0xa1, 0x89, 0x0d, 0xbf, 0xe6, 0x42, 0x68, 0x41, 0x99, 0x2d, 0x0f, 0xb0, 0x54, 0xbb, 0x16]]

/-- `INV_SBOX_AES` (40_sbox.md section 4). -/
def invSboxAesRom : Rom :=
  #v[#v[0x52, 0x09, 0x6a, 0xd5, 0x30, 0x36, 0xa5, 0x38, 0xbf, 0x40, 0xa3, 0x9e, 0x81, 0xf3, 0xd7, 0xfb],
    #v[0x7c, 0xe3, 0x39, 0x82, 0x9b, 0x2f, 0xff, 0x87, 0x34, 0x8e, 0x43, 0x44, 0xc4, 0xde, 0xe9, 0xcb],
    #v[0x54, 0x7b, 0x94, 0x32, 0xa6, 0xc2, 0x23, 0x3d, 0xee, 0x4c, 0x95, 0x0b, 0x42, 0xfa, 0xc3, 0x4e],
    #v[0x08, 0x2e, 0xa1, 0x66, 0x28, 0xd9, 0x24, 0xb2, 0x76, 0x5b, 0xa2, 0x49, 0x6d, 0x8b, 0xd1, 0x25],
    #v[0x72, 0xf8, 0xf6, 0x64, 0x86, 0x68, 0x98, 0x16, 0xd4, 0xa4, 0x5c, 0xcc, 0x5d, 0x65, 0xb6, 0x92],
    #v[0x6c, 0x70, 0x48, 0x50, 0xfd, 0xed, 0xb9, 0xda, 0x5e, 0x15, 0x46, 0x57, 0xa7, 0x8d, 0x9d, 0x84],
    #v[0x90, 0xd8, 0xab, 0x00, 0x8c, 0xbc, 0xd3, 0x0a, 0xf7, 0xe4, 0x58, 0x05, 0xb8, 0xb3, 0x45, 0x06],
    #v[0xd0, 0x2c, 0x1e, 0x8f, 0xca, 0x3f, 0x0f, 0x02, 0xc1, 0xaf, 0xbd, 0x03, 0x01, 0x13, 0x8a, 0x6b],
    #v[0x3a, 0x91, 0x11, 0x41, 0x4f, 0x67, 0xdc, 0xea, 0x97, 0xf2, 0xcf, 0xce, 0xf0, 0xb4, 0xe6, 0x73],
    #v[0x96, 0xac, 0x74, 0x22, 0xe7, 0xad, 0x35, 0x85, 0xe2, 0xf9, 0x37, 0xe8, 0x1c, 0x75, 0xdf, 0x6e],
    #v[0x47, 0xf1, 0x1a, 0x71, 0x1d, 0x29, 0xc5, 0x89, 0x6f, 0xb7, 0x62, 0x0e, 0xaa, 0x18, 0xbe, 0x1b],
    #v[0xfc, 0x56, 0x3e, 0x4b, 0xc6, 0xd2, 0x79, 0x20, 0x9a, 0xdb, 0xc0, 0xfe, 0x78, 0xcd, 0x5a, 0xf4],
    #v[0x1f, 0xdd, 0xa8, 0x33, 0x88, 0x07, 0xc7, 0x31, 0xb1, 0x12, 0x10, 0x59, 0x27, 0x80, 0xec, 0x5f],
    #v[0x60, 0x51, 0x7f, 0xa9, 0x19, 0xb5, 0x4a, 0x0d, 0x2d, 0xe5, 0x7a, 0x9f, 0x93, 0xc9, 0x9c, 0xef],
    #v[0xa0, 0xe0, 0x3b, 0x4d, 0xae, 0x2a, 0xf5, 0xb0, 0xc8, 0xeb, 0xbb, 0x3c, 0x83, 0x53, 0x99, 0x61],
    #v[0x17, 0x2b, 0x04, 0x7e, 0xba, 0x77, 0xd6, 0x26, 0xe1, 0x69, 0x14, 0x63, 0x55, 0x21, 0x0c, 0x7d]]

/-- `SBOX_AES` as a value of the parameter `SBOX`. -/
def sboxAes : Byte ≃ Byte where
  toFun := romLookup sboxAesRom
  invFun := romLookup invSboxAesRom
  left_inv := by unfold Function.LeftInverse; decide +kernel
  right_inv := by unfold Function.RightInverse Function.LeftInverse; decide +kernel

/-! The permutation -/

/-- `PERM_T[i] = (7*i + 3) mod 16`, its inverse `(7*j + 11) mod 16` (41_permutation.md R102, R103). -/
def permT : Fin 16 ≃ Fin 16 where
  toFun i := Fin.ofNat 16 (7 * i.val + 3)
  invFun j := Fin.ofNat 16 (7 * j.val + 11)
  left_inv := by unfold Function.LeftInverse; decide
  right_inv := by unfold Function.RightInverse Function.LeftInverse; decide

/-! SHA-256 (42_key_derivation.md section 5) -/

/-- A 32-bit word of the hash. -/
abbrev Word32 := BitVec 32

/-- The round constants `Kc[0..63]`. -/
def shaRound : List Word32 :=
  [0x428a2f98, 0x71374491, 0xb5c0fbcf, 0xe9b5dba5, 0x3956c25b, 0x59f111f1, 0x923f82a4, 0xab1c5ed5]
    ++ [0xd807aa98, 0x12835b01, 0x243185be, 0x550c7dc3, 0x72be5d74, 0x80deb1fe, 0x9bdc06a7, 0xc19bf174]
    ++ [0xe49b69c1, 0xefbe4786, 0x0fc19dc6, 0x240ca1cc, 0x2de92c6f, 0x4a7484aa, 0x5cb0a9dc, 0x76f988da]
    ++ [0x983e5152, 0xa831c66d, 0xb00327c8, 0xbf597fc7, 0xc6e00bf3, 0xd5a79147, 0x06ca6351, 0x14292967]
    ++ [0x27b70a85, 0x2e1b2138, 0x4d2c6dfc, 0x53380d13, 0x650a7354, 0x766a0abb, 0x81c2c92e, 0x92722c85]
    ++ [0xa2bfe8a1, 0xa81a664b, 0xc24b8b70, 0xc76c51a3, 0xd192e819, 0xd6990624, 0xf40e3585, 0x106aa070]
    ++ [0x19a4c116, 0x1e376c08, 0x2748774c, 0x34b0bcb5, 0x391c0cb3, 0x4ed8aa4a, 0x5b9cca4f, 0x682e6ff3]
    ++ [0x748f82ee, 0x78a5636f, 0x84c87814, 0x8cc70208, 0x90befffa, 0xa4506ceb, 0xbef9a3f7, 0xc67178f2]

/-- The eight chaining words `H0` to `H7`. -/
structure ShaState where
  /-- Word `a` or `H0`. -/
  a : Word32
  /-- Word `b` or `H1`. -/
  b : Word32
  /-- Word `c` or `H2`. -/
  c : Word32
  /-- Word `d` or `H3`. -/
  d : Word32
  /-- Word `e` or `H4`. -/
  e : Word32
  /-- Word `f` or `H5`. -/
  f : Word32
  /-- Word `g` or `H6`. -/
  g : Word32
  /-- Word `h` or `H7`. -/
  h : Word32
deriving DecidableEq, Repr

/-- The initial hash value. -/
def shaInit : ShaState :=
  { a := 0x6a09e667, b := 0xbb67ae85, c := 0x3c6ef372, d := 0xa54ff53a
    e := 0x510e527f, f := 0x9b05688c, g := 0x1f83d9ab, h := 0x5be0cd19 }

/-- A natural number as n big-endian bytes. -/
def bigEndian (n x : Nat) : List Byte := (List.range n).map fun i => BitVec.ofNat 8 (x / 256 ^ (n - 1 - i))

/-- The padding: 0x80, the fewest zero bytes that bring the length to 56 modulo 64, the length in bits on 8 bytes. -/
def shaPad (m : List Byte) : List Byte :=
  m ++ 0x80 :: (List.replicate ((119 - m.length % 64) % 64) 0x00 ++ bigEndian 8 (8 * m.length))

/-- The big-endian words of a byte string; a trailing part of fewer than four bytes is dropped. -/
def wordsOf : List Byte → List Word32
  | p :: q :: r :: t :: rest => (p ++ q ++ r ++ t) :: wordsOf rest
  | _ => []

/-- The message schedule's function `s0`. -/
def smallSigma0 (x : Word32) : Word32 := x.rotateRight 7 ^^^ x.rotateRight 18 ^^^ x >>> 3

/-- The message schedule's function `s1`. -/
def smallSigma1 (x : Word32) : Word32 := x.rotateRight 17 ^^^ x.rotateRight 19 ^^^ x >>> 10

/-- n further words of the schedule, the list holding the words so far with the latest first. -/
def shaExtend : Nat → List Word32 → List Word32
  | 0, w => w
  | n + 1, w =>
    shaExtend n
      ((w.getD 15 0 + smallSigma0 (w.getD 14 0) + w.getD 6 0 + smallSigma1 (w.getD 1 0)) :: w)

/-- The 64 words `W[0..63]` of a chunk of 16 words. -/
def shaSchedule (chunk : List Word32) : List Word32 := (shaExtend 48 chunk.reverse).reverse

/-- One round, with its constant and its schedule word. -/
def shaStep (s : ShaState) (kw : Word32 × Word32) : ShaState :=
  let t1 := s.h + (s.e.rotateRight 6 ^^^ s.e.rotateRight 11 ^^^ s.e.rotateRight 25)
    + ((s.e &&& s.f) ^^^ (~~~s.e &&& s.g)) + kw.1 + kw.2
  let t2 := (s.a.rotateRight 2 ^^^ s.a.rotateRight 13 ^^^ s.a.rotateRight 22)
    + ((s.a &&& s.b) ^^^ (s.a &&& s.c) ^^^ (s.b &&& s.c))
  { a := t1 + t2, b := s.a, c := s.b, d := s.c, e := s.d + t1, f := s.e, g := s.f, h := s.g }

/-- One chunk of 16 words absorbed. -/
def shaChunk (s : ShaState) (chunk : List Word32) : ShaState :=
  let t := (shaRound.zip (shaSchedule chunk)).foldl shaStep s
  { a := s.a + t.a, b := s.b + t.b, c := s.c + t.c, d := s.d + t.d
    e := s.e + t.e, f := s.f + t.f, g := s.g + t.g, h := s.h + t.h }

/-- n chunks of 16 words absorbed in order. -/
def shaChunks : Nat → ShaState → List Word32 → ShaState
  | 0, s, _ => s
  | n + 1, s, w => shaChunks n (shaChunk s (w.take 16)) (w.drop 16)

/-- The digest's bytes, each word big-endian. -/
def shaBytes (s : ShaState) : List Byte :=
  [s.a, s.b, s.c, s.d, s.e, s.f, s.g, s.h].flatMap fun w => bigEndian 4 w.toNat

/-- SHA-256 (42_key_derivation.md section 5). -/
def sha256 (m : List Byte) : Digest :=
  let w := wordsOf (shaPad m)
  let bytes := shaBytes (shaChunks (w.length / 16) shaInit w)
  Vector.ofFn fun i => bytes.getD i.val 0

/-! The parameters of the test vectors -/

/-- The parameters of 95_test_vectors.md: SBOX_AES, PERM_T, SHA-256, MAX_BLOCKS = 64, PW_MAX = 256; the punctuation, the clock and the
filler are arguments, as the vectors state them one by one. -/
def vectorConfig (punct : Fin 32) (now : Block) (filler : Nat → Nat) : Config :=
  { sbox := sboxAes, perm := permT, hash256 := sha256, padPunct := punct, padRest := []
    maxBlocksPred := 63, pwMaxPred := 255, now := fun _ => now, filler := filler }

end Sys2Proof.Machine
end

