-- ==== Sys2Proof/Machine/Script.lean ====
section
/-! DEFINITION. Host scripts: the bus traffic of each step and pseudo-step (30_encoding.md R79), and what a script's EXPECT steps assert of the reads it makes. -/

namespace Sys2Proof.Machine

/-- The address of `CMD` (20_memory.md R52). -/
def cmdAddr : Addr := 0x0000

/-- The address of `STATUS` (20_memory.md R52). -/
def statusAddr : Addr := 0x0001

/-- `code(ch)`: the ASCII code of a character of the spec's examples (00_scope.md R15, 30_encoding.md R79). -/
def charCode (ch : Char) : Byte := BitVec.ofNat 8 ch.toNat

/-- `WR` steps at ascending addresses from base, the first byte first. -/
def loadBytes : Nat → List Byte → List HostOp
  | _, [] => []
  | base, v :: vs => .write (BitVec.ofNat 16 base) v :: loadBytes (base + 1) vs

/-- The two writes of a length n: its low byte at base, its high byte at base + 1. -/
def loadLength (base n : Nat) : List HostOp :=
  [.write (BitVec.ofNat 16 base) (BitVec.ofNat 8 (n % 256)), .write (BitVec.ofNat 16 (base + 1)) (BitVec.ofNat 8 (n / 256))]

/-- The bus traffic of a script step. `WAIT` is exactly one read of `STATUS` in the atomic model. -/
def expand : HostStep → List HostOp
  | .wr a v => [.write a v]
  | .rd a => [.read a]
  | .cmd m => [.write cmdAddr (encode m)]
  | .wait => [.read statusAddr]
  | .expect a _ => [.read a]
  | .ldb bytes => loadBytes 0x0010 bytes
  | .ldk bytes => loadBytes 0x0020 bytes
  | .ldts chars => loadBytes 0x0030 chars
  | .ldhx chars => loadBytes 0x0060 chars
  | .ldpw chars => loadBytes 0x0100 chars ++ loadLength 0x0008 chars.length
  | .ldmsg chars => loadBytes 0x4000 chars ++ loadLength 0x0004 chars.length
  | .ldct chars => loadBytes 0x8000 chars ++ loadLength 0x0006 chars.length

/-- The bus traffic of a script, step by step in order. -/
def expandAll (steps : List HostStep) : List HostOp := steps.flatMap expand

/-- What a step says of the one read it makes: `EXPECT` asserts its value, `WAIT` that bit 0 is 0, `RD` nothing; the other steps make no
read. -/
def expectation : HostStep → List (BusRead → Bool)
  | .rd a => [fun r => r.addr == a]
  | .wait => [fun r => r.addr == statusAddr && r.data.getLsbD 0 == false]
  | .expect a v => [fun r => r.addr == a && r.data == v]
  | _ => []

/-- The reads a script made, in order, are as its steps say. -/
def expectationsMet (steps : List HostStep) (reads : List BusRead) : Bool :=
  let wants := steps.flatMap expectation
  wants.length == reads.length && (wants.zip reads).all fun x => x.1 x.2

/-- The state with a script's traffic as the host's operations to come (log 1). -/
def withScript (steps : List HostStep) (s : State) : State := { s with script := expandAll steps }

end Sys2Proof.Machine
end

