-- ==== Sys2Proof/Safety.lean ====
section
/-! DEFINITION. What counts as a well-formed state and a safe run, in the terms the statements use. -/

namespace Sys2Proof.Machine

/-- The engine is idle: `STATUS.BUSY` = 0 (00_scope.md glossary). -/
abbrev State.idle (s : State) : Prop := s.busy = false

/-- Each buffer is in canonical form and holds no index at or above its size (10_state.md R31, 20_memory.md R63). -/
structure State.buffersWf (c : Config) (s : State) : Prop where
  /-- `PW` is canonical. -/
  pwWf : s.pw.wf
  /-- `PW` has PW_MAX bytes. -/
  pwSize : s.pw.within c.pwMax
  /-- `MSG` is canonical. -/
  msgWf : s.msg.wf
  /-- `MSG` has 16*MAX_BLOCKS bytes. -/
  msgSize : s.msg.within c.msgSize
  /-- `CT` is canonical. -/
  ctWf : s.ct.wf
  /-- `CT` has 32*MAX_BLOCKS bytes. -/
  ctSize : s.ct.within c.ctSize

/-- The invariant of the machine between two steps: idle, with well-formed buffers. -/
structure State.Inv (c : Config) (s : State) : Prop where
  /-- The engine is idle between steps (70_reset_and_hazards.md R215). -/
  idle : s.idle
  /-- The buffers are well formed. -/
  buffers : s.buffersWf c

/-- A run of n steps from s is safe: it ends in a next state, neither in a fault nor in a refusal. -/
def SafeRun (n : Nat) (s : State) : Prop := ∃ t, Sys2Proof.core.run n s = Host.Outcome.next t

end Sys2Proof.Machine
end

