-- ==== Sys2Proof/Certificates/Slice0/Obligations.lean ====
section
/-! DEFINITION. The statements for the provers. Each docstring names the rule of spec/ it formalises; a worked example is stated on the spec's own test parameters (95_test_vectors.md). -/

open Sys2Proof Sys2Proof.Machine

namespace Sys2Proof.Claims

/-! Words the statements share -/

/-- The test parameters of 95_test_vectors.md: SBOX_AES, PERM_T, SHA-256, MAX_BLOCKS = 64, PW_MAX = 256. -/
def vectors : Config := vectorConfig 2 (Vector.replicate 16 0x30) fun n => n

/-- `00 01 02 ... 0f`. -/
def counting : Block :=
  #v[0x00, 0x01, 0x02, 0x03, 0x04, 0x05, 0x06, 0x07, 0x08, 0x09, 0x0a, 0x0b, 0x0c, 0x0d, 0x0e, 0x0f]

/-- `K_test`, the characters `e407f69d831c294b`. -/
def keyTest : Block :=
  #v[0x65, 0x34, 0x30, 0x37, 0x66, 0x36, 0x39, 0x64, 0x38, 0x33, 0x31, 0x63, 0x32, 0x39, 0x34, 0x62]

/-- "HELLOabcdefgh005". -/
def helloBlock : Block :=
  #v[0x48, 0x45, 0x4c, 0x4c, 0x4f, 0x61, 0x62, 0x63, 0x64, 0x65, 0x66, 0x67, 0x68, 0x30, 0x30, 0x35]

/-- The transform of "HELLOabcdefgh005" under `K_test`. -/
def helloCipher : Block :=
  #v[0x0b, 0x77, 0x19, 0x04, 0x62, 0xb2, 0xaf, 0xce, 0x75, 0x61, 0xb4, 0x4a, 0xdd, 0x7c, 0xcf, 0x66]

/-- The 32 characters `0b77190462b2afce7561b44add7ccf66`. -/
def helloHex : HexChars :=
  #v[0x30, 0x62, 0x37, 0x37, 0x31, 0x39, 0x30, 0x34, 0x36, 0x32, 0x62, 0x32, 0x61, 0x66, 0x63, 0x65,
    0x37, 0x35, 0x36, 0x31, 0x62, 0x34, 0x34, 0x61, 0x64, 0x64, 0x37, 0x63, 0x63, 0x66, 0x36, 0x36]

/-- The reset state with a given block register and key. -/
def withBK (b k : Block) : State := { State.reset with b := b, k := k }

/-- The 13 command bytes (30_encoding.md R72). -/
def commandBytes : List Byte :=
  [0x10, 0x11, 0x20, 0x21, 0x30, 0x40, 0x50, 0x60, 0x61, 0x70, 0x71, 0x80, 0x81]

/-- A command ended without an error and changed only what is said beside this: `ERR` = 0x00, idle. -/
abbrev ok (s : State) : State := { s with err := .noError, busy := false }

/-- A command ended with an error and changed nothing but `ERR`: the engine is idle. -/
abbrev failed (e : ErrCode) (s : State) : State := { s with err := e, busy := false }

/-- The host's next operation settles in one step of a machine of configuration c. -/
def SettlesTo (c : Config) (s t : State) : Prop :=
  hostTurn c s = .settled (.next t) ∧ (c = Config.engine → step s = .next t)

/-- A bus read of address a returns v and changes no state of the engine (20_memory.md R50). -/
def ReadGives (c : Config) (s : State) (a : Addr) (v : Byte) : Prop :=
  ∀ rest, s.script = .read a :: rest →
    SettlesTo c s { s with script := rest, reads := { addr := a, data := v } :: s.reads }

/-- A bus write of v to address a leaves t, but for the operation taken from the script (20_memory.md R51). -/
def WriteGives (c : Config) (s : State) (a : Addr) (v : Byte) (t : State) : Prop :=
  ∀ rest, s.script = .write a v :: rest → SettlesTo c s { t with script := rest }

/-- The bus address base + i. -/
abbrev at_ (base i : Nat) : Addr := BitVec.ofNat 16 (base + i)

/-- A reserved address, or one inside a buffer's window at or above the buffer's size (20_memory.md R52, R53). -/
def Unmapped (c : Config) (a : Addr) : Prop :=
  a.toNat = 0x0003 ∨ (0x000A ≤ a.toNat ∧ a.toNat ≤ 0x000F) ∨ (0x0050 ≤ a.toNat ∧ a.toNat ≤ 0x005F)
    ∨ (0x0080 ≤ a.toNat ∧ a.toNat ≤ 0x00FF) ∨ (0x0100 + c.pwMax ≤ a.toNat ∧ a.toNat ≤ 0x3FFF)
    ∨ (0x4000 + c.msgSize ≤ a.toNat ∧ a.toNat ≤ 0x7FFF) ∨ 0x8000 + c.ctSize ≤ a.toNat

/-- A location the host can write (20_memory.md R52). -/
def Writable (c : Config) (a : Addr) : Prop :=
  a.toNat = 0x0000 ∨ (0x0004 ≤ a.toNat ∧ a.toNat ≤ 0x0009) ∨ (0x0010 ≤ a.toNat ∧ a.toNat ≤ 0x003F)
    ∨ (0x0060 ≤ a.toNat ∧ a.toNat ≤ 0x007F) ∨ (0x0100 ≤ a.toNat ∧ a.toNat < 0x0100 + c.pwMax)
    ∨ (0x4000 ≤ a.toNat ∧ a.toNat < 0x4000 + c.msgSize) ∨ (0x8000 ≤ a.toNat ∧ a.toNat < 0x8000 + c.ctSize)

/-- ENC passes its checks (45_message_codec.md R170). -/
def EncRuns (c : Config) (s : State) : Prop :=
  s.mlen.toNat ≤ c.msgSize ∧ s.pwlen.toNat ≤ c.pwMax ∧ s.mlen.toNat % 16 ≠ 14 ∧ s.mlen.toNat % 16 ≠ 15

/-- The key matrix ENC derives: from the password and the `NOW` it samples (45_message_codec.md R167, R168). -/
def encKey (c : Config) (s : State) : Block := derive c (password s) (c.now s.nowDraws).toList

/-- The transformed block of chunk j of the message (45_message_codec.md R169). -/
def encOut (c : Config) (s : State) (j : Nat) : Block :=
  forward c (chunkBlock c (blockCount s.mlen.toNat) (finalLen s.mlen.toNat) s j) (encKey c s)

/-- The state after a successful ENC (45_message_codec.md R169, R171). -/
structure EncEnds (c : Config) (s t : State) : Prop where
  /-- Nothing but these fields changes. -/
  frame : t = { s with
    b := t.b, k := t.k, ts := t.ts, hx := t.hx, ct := t.ct, ctlen := t.ctlen, err := t.err, busy := t.busy
    nowDraws := t.nowDraws, fillerDraws := t.fillerDraws }
  /-- `TS` is the one draw of `NOW`. -/
  captured : t.ts = c.now s.nowDraws ∧ t.nowDraws = s.nowDraws + 1
  /-- `13 - n` filler bytes are drawn when n < 16, none otherwise. -/
  drawn : t.fillerDraws = s.fillerDraws + if finalLen s.mlen.toNat < 16 then 13 - finalLen s.mlen.toNat else 0
  /-- `CTLEN` is 32 times the number of chunks. -/
  length : t.ctlen.toNat = 32 * blockCount s.mlen.toNat
  /-- `CT[32*j + i]` is character i of chunk j's transformed block. -/
  blocks : ∀ j < blockCount s.mlen.toNat, ∀ (i : Nat) (h : i < 32), t.ct.load (32 * j + i) = (hexEnc (encOut c s j))[i]
  /-- `CT` at and above `CTLEN` is unchanged. -/
  above : ∀ a, 32 * blockCount s.mlen.toNat ≤ a → t.ct.load a = s.ct.load a
  /-- `B` and `HX` hold the last block and its hex. -/
  last : t.b = encOut c s (blockCount s.mlen.toNat - 1) ∧ t.hx = hexEnc t.b
  /-- `K` is cleared and no error is reported. -/
  done : t.k = Vector.replicate 16 0x00 ∧ t.err = .noError ∧ t.busy = false

/-- DEC passes its checks (45_message_codec.md R172, R177). -/
def DecRuns (c : Config) (s : State) : Prop :=
  s.ctlen.toNat ≤ c.ctSize ∧ s.pwlen.toNat ≤ c.pwMax ∧ s.ctlen.toNat % 32 = 0
    ∧ ∀ m < s.ctlen.toNat, hexVal (s.ct.load m) ≠ none

/-- The key matrix DEC derives: from the password and the `TS` the host supplied (45_message_codec.md R173). -/
def decKey (c : Config) (s : State) : Block := derive c (password s) s.ts.toList

/-- The length Lr of the string DEC reconstructs (45_message_codec.md R173). -/
def reconLen (s : State) : Nat := 16 * (s.ctlen.toNat / 32)

/-- The last three of the first len bytes of a buffer are the digits d2, d1, d0 (45_message_codec.md R174). -/
def SuffixDigits (m : Memory) (len d2 d1 d0 : Nat) : Prop :=
  3 ≤ len ∧ digitVal (m.load (len - 3)) = some d2 ∧ digitVal (m.load (len - 2)) = some d1
    ∧ digitVal (m.load (len - 1)) = some d0

/-- The outcome of the strip of a string of len bytes (45_message_codec.md R174, R179, R180). -/
structure Stripped (len : Nat) (t : State) : Prop where
  /-- Three digits spell N: the first min(N, len) bytes are the message, and no error is reported. -/
  number : ∀ d2 d1 d0, SuffixDigits t.msg len d2 d1 d0 →
    t.mlen.toNat = min (100 * d2 + 10 * d1 + d0) len ∧ t.err = .noError
  /-- Otherwise: `PadFormatError`, and the whole string is left. -/
  noNumber : (∀ d2 d1 d0, ¬ SuffixDigits t.msg len d2 d1 d0) → t.mlen.toNat = len ∧ t.err = .padFormatError

/-- The state after DEC has passed its checks (45_message_codec.md R173, R178). -/
structure DecEnds (c : Config) (s t : State) : Prop where
  /-- Nothing but these fields changes. -/
  frame : t = { s with
    b := t.b, k := t.k, hx := t.hx, msg := t.msg, mlen := t.mlen, err := t.err, busy := t.busy }
  /-- Block j of `MSG` is the inverse transform of the bytes that the 32 characters of block j of `CT` spell. -/
  blocks : ∀ j < s.ctlen.toNat / 32, ∃ y, hexDec (hexChunk s j) = some y
    ∧ ∀ (i : Nat) (h : i < 16), t.msg.load (16 * j + i) = (inverse c y (decKey c s))[i]
  /-- `MSG` at and above Lr is unchanged. -/
  above : ∀ a, reconLen s ≤ a → t.msg.load a = s.msg.load a
  /-- `B` holds the last reconstructed block and `HX` the last 32 characters as they stood in `CT`. -/
  last : 32 ≤ s.ctlen.toNat →
    (∀ (i : Nat) (h : i < 16), t.b[i] = t.msg.load (reconLen s - 16 + i)) ∧ t.hx = hexChunk s (s.ctlen.toNat / 32 - 1)
  /-- With no block, `B` and `HX` are unchanged. -/
  none : s.ctlen.toNat = 0 → t.b = s.b ∧ t.hx = s.hx
  /-- The strip. -/
  strip : Stripped (reconLen s) t
  /-- `K` is cleared. -/
  done : t.k = Vector.replicate 16 0x00 ∧ t.busy = false

/-- The commands of a list executed one after the other, each accepted into `CMD` before it runs (30_encoding.md R77). -/
def execSequence : List Instr → State → Host.Outcome State Fault Refusal
  | [], s => .next s
  | i :: is, s =>
    match exec i { s with cmd := encode i, busy := true } with
    | .next t => execSequence is t
    | o => o

/-- A small letter for a capital A to F; every other byte as it is (44_hex_codec.md R154). -/
def foldCase (ch : Byte) : Byte := if 0x41 ≤ ch.toNat ∧ ch.toNat ≤ 0x46 then ch + 0x20 else ch

end Sys2Proof.Claims

open Sys2Proof.Claims

/-! Decoding -/

/-- R72: the 13 command bytes, each written out, decode to their commands. -/
def Obligations.CommandBytesDecodeToTheirCommands : Prop :=
  decode 0x10 = .instr .sbf ∧ decode 0x11 = .instr .sbi ∧ decode 0x20 = .instr .prm ∧ decode 0x21 = .instr .upr
    ∧ decode 0x30 = .instr .rot ∧ decode 0x40 = .instr .xky ∧ decode 0x50 = .instr .kdf ∧ decode 0x60 = .instr .bfw
    ∧ decode 0x61 = .instr .bin ∧ decode 0x70 = .instr .hxe ∧ decode 0x71 = .instr .hxd ∧ decode 0x80 = .instr .enc
    ∧ decode 0x81 = .instr .dec

/-- R71 to R74: decode and encode agree in both directions, and every byte outside the 13 is rejected. -/
def Obligations.DecodeAndEncodeAgreeOnEveryByte : Prop :=
  (∀ (i : Instr) (v : Byte), decode v = .instr i ↔ v = encode i)
    ∧ (∀ v : Byte, (∃ why, decode v = .rejected why) ↔ v ∉ commandBytes)
    ∧ ∀ i : Instr, decodeTableWord 8 (encode i).toNat = some i ∧ (fieldsOf (encode i)).wf = true

/-! The step -/

/-- R26, R59, R215: a write to `CMD` of a byte that decodes to a command is, in ONE step, that command executed on the state with the byte
in `CMD` and `BUSY` set. -/
def Obligations.StepRunsTheDecodedCommand : Prop :=
  ∀ (s : State) (v : Byte) (rest : List HostOp) (i : Instr),
    s.idle → s.script = .write 0x0000 v :: rest → decode v = .instr i →
      step s = exec i { s with script := rest, cmd := v, busy := true }

/-- R192, R74: any other byte is stored in `CMD`, `ERR` becomes 0x01, and nothing else changes. -/
def Obligations.IllegalByteRaisesIllegalCommand : Prop :=
  ∀ (s : State) (v : Byte) (rest : List HostOp),
    s.idle → s.script = .write 0x0000 v :: rest → v ∉ commandBytes →
      step s = .next { s with script := rest, cmd := v, err := .illegalCommand }
        ∧ ErrCode.illegalCommand.code = 0x01

/-- R190: the byte of `ERR` for each outcome, and no two alike. -/
def Obligations.ErrorCodesAreTheTable : Prop :=
  ErrCode.noError.code = 0x00 ∧ ErrCode.illegalCommand.code = 0x01 ∧ ErrCode.decodingError.code = 0x02
    ∧ ErrCode.paddingOverflowError.code = 0x03 ∧ ErrCode.padFormatError.code = 0x04
    ∧ ErrCode.lengthError.code = 0x05 ∧ ∀ e f : ErrCode, e.code = f.code → e = f

/-- R211: RESET, in any state, sets every register and every buffer byte to zero and leaves the engine idle with no error. -/
def Obligations.ResetSetsEveryRegisterToZero : Prop :=
  ∀ (s : State) (rest : List HostOp), s.script = .reset :: rest →
    ∃ t, step s = .next t
      ∧ t.b = Vector.replicate 16 0x00 ∧ t.k = Vector.replicate 16 0x00 ∧ t.ts = Vector.replicate 16 0x00
      ∧ t.hx = Vector.replicate 32 0x00 ∧ t.cmd = 0x00 ∧ t.err.code = 0x00 ∧ t.busy = false
      ∧ t.mlen = 0 ∧ t.ctlen = 0 ∧ t.pwlen = 0
      ∧ ∀ i, t.pw.load i = 0x00 ∧ t.msg.load i = 0x00 ∧ t.ct.load i = 0x00

/-- The model's choice (log 2): RESET leaves the fields that are the model's own, the host's script and reads and the draw
counters, as they are. -/
def Obligations.ResetKeepsTheModelsOwnFields : Prop :=
  ∀ (s : State) (rest : List HostOp), s.script = .reset :: rest →
    ∃ t, step s = .next t ∧ t.script = rest ∧ t.reads = s.reads ∧ t.nowDraws = s.nowDraws
      ∧ t.fillerDraws = s.fillerDraws

/-- R213: what the first commands after reset do. BFW gives `SBOX[0]` in every lane, DEC raises `PadFormatError`, ENC encrypts the empty message
with the empty password. -/
def Obligations.FirstCommandsAfterReset : Prop :=
  (∃ t, exec .bfw State.reset = .next t ∧ t.b = Vector.replicate 16 (Config.engine.sbox 0x00))
    ∧ (∃ t, exec .dec State.reset = .next t ∧ t.err = .padFormatError ∧ t.mlen = 0)
    ∧ (∃ t, exec .enc State.reset = .next t ∧ EncEnds Config.engine State.reset t
        ∧ password State.reset = [] ∧ message State.reset = [] ∧ t.ctlen = 32)

/-- The model's choice (log 10): with no operation from the host the engine stays as it is. -/
def Obligations.EngineWithoutHostOperationStays : Prop :=
  ∀ s : State, s.script = [] → step s = .next s

/-- R216 with the treatment 93_implementation_defined.md U1 names: while `BUSY` = 1 every access but a read of `STATUS` is refused, and that read
gives 0x01. -/
def Obligations.AccessWhileBusyIsRefused : Prop :=
  ∀ (s : State) (rest : List HostOp), s.busy = true →
    (∀ a v, s.script = .write a v :: rest → step s = .refused .accessWhileBusy)
      ∧ (∀ a, a ≠ 0x0001 → s.script = .read a :: rest → step s = .refused .accessWhileBusy)
      ∧ ReadGives Config.engine s 0x0001 0x01

/-! The bus -/

/-- R50, R52: what each mapped location reads as; reading changes nothing. The `NOW` window is in `NowReadIsAFreshDraw`, the
unmapped addresses in `UnmappedAndReadOnlyLocations`. -/
def Obligations.BusReadReturnsTheMappedLocation : Prop :=
  ∀ (c : Config) (s : State), s.idle →
    ReadGives c s 0x0000 s.cmd ∧ ReadGives c s 0x0001 0x00 ∧ ReadGives c s 0x0002 s.err.code
    ∧ ReadGives c s 0x0004 (BitVec.ofNat 8 s.mlen.toNat) ∧ ReadGives c s 0x0005 (BitVec.ofNat 8 (s.mlen.toNat / 256))
    ∧ ReadGives c s 0x0006 (BitVec.ofNat 8 s.ctlen.toNat) ∧ ReadGives c s 0x0007 (BitVec.ofNat 8 (s.ctlen.toNat / 256))
    ∧ ReadGives c s 0x0008 (BitVec.ofNat 8 s.pwlen.toNat) ∧ ReadGives c s 0x0009 (BitVec.ofNat 8 (s.pwlen.toNat / 256))
    ∧ (∀ i : Fin 16, ReadGives c s (at_ 0x0010 i) s.b[i] ∧ ReadGives c s (at_ 0x0020 i) s.k[i]
        ∧ ReadGives c s (at_ 0x0030 i) s.ts[i])
    ∧ (∀ i : Fin 32, ReadGives c s (at_ 0x0060 i) s.hx[i])
    ∧ (∀ i < c.pwMax, ReadGives c s (at_ 0x0100 i) (s.pw.load i))
    ∧ (∀ i < c.msgSize, ReadGives c s (at_ 0x4000 i) (s.msg.load i))
    ∧ (∀ i < c.ctSize, ReadGives c s (at_ 0x8000 i) (s.ct.load i))

/-- R51, R52: what a write to each writable location but `CMD` changes: that location alone. -/
def Obligations.BusWriteChangesTheMappedLocationAlone : Prop :=
  ∀ (c : Config) (s : State) (v : Byte), s.idle →
    WriteGives c s 0x0004 v { s with mlen := BitVec.ofNat 16 (s.mlen.toNat / 256 * 256 + v.toNat) }
    ∧ WriteGives c s 0x0005 v { s with mlen := BitVec.ofNat 16 (v.toNat * 256 + s.mlen.toNat % 256) }
    ∧ WriteGives c s 0x0006 v { s with ctlen := BitVec.ofNat 16 (s.ctlen.toNat / 256 * 256 + v.toNat) }
    ∧ WriteGives c s 0x0007 v { s with ctlen := BitVec.ofNat 16 (v.toNat * 256 + s.ctlen.toNat % 256) }
    ∧ WriteGives c s 0x0008 v { s with pwlen := BitVec.ofNat 16 (s.pwlen.toNat / 256 * 256 + v.toNat) }
    ∧ WriteGives c s 0x0009 v { s with pwlen := BitVec.ofNat 16 (v.toNat * 256 + s.pwlen.toNat % 256) }
    ∧ (∀ i : Fin 16, WriteGives c s (at_ 0x0010 i) v { s with b := s.b.set i v }
        ∧ WriteGives c s (at_ 0x0020 i) v { s with k := s.k.set i v }
        ∧ WriteGives c s (at_ 0x0030 i) v { s with ts := s.ts.set i v })
    ∧ (∀ i : Fin 32, WriteGives c s (at_ 0x0060 i) v { s with hx := s.hx.set i v })
    ∧ (∀ i < c.pwMax, WriteGives c s (at_ 0x0100 i) v { s with pw := s.pw.store i v })
    ∧ (∀ i < c.msgSize, WriteGives c s (at_ 0x4000 i) v { s with msg := s.msg.store i v })
    ∧ (∀ i < c.ctSize, WriteGives c s (at_ 0x8000 i) v { s with ct := s.ct.store i v })

/-- R53: unmapped addresses read 0x00 and ignore writes, read-only locations ignore writes, and `ERR` does not change. -/
def Obligations.UnmappedAndReadOnlyLocations : Prop :=
  ∀ (c : Config) (s : State) (a : Addr) (v : Byte), s.idle →
    (Unmapped c a → ReadGives c s a 0x00 ∧ WriteGives c s a v s)
    ∧ (a.toNat = 0x0001 ∨ a.toNat = 0x0002 ∨ (0x0040 ≤ a.toNat ∧ a.toNat ≤ 0x004F) → WriteGives c s a v s)

/-- R32, R220: a host read of `NOW[i]` returns byte i of a fresh draw, and nothing else changes. -/
def Obligations.NowReadIsAFreshDraw : Prop :=
  ∀ (c : Config) (s : State) (i : Fin 16) (rest : List HostOp), s.idle → s.script = .read (at_ 0x0040 i) :: rest →
    SettlesTo c s { s with
      script := rest, nowDraws := s.nowDraws + 1
      reads := { addr := at_ 0x0040 i, data := (c.now s.nowDraws)[i] } :: s.reads }

/-- R55: a host that reads a length register's two addresses in turn gets its value, the low byte first. -/
def Obligations.LengthRegistersReadLittleEndian : Prop :=
  ∀ (s : State) (rest : List HostOp), s.idle →
    (s.script = .read 0x0004 :: .read 0x0005 :: rest → ∃ lo hi : Byte,
      Sys2Proof.core.run 2 s = .next { s with script := rest, reads := ⟨0x0005, hi⟩ :: ⟨0x0004, lo⟩ :: s.reads }
        ∧ s.mlen.toNat = lo.toNat + 256 * hi.toNat)
    ∧ (s.script = .read 0x0006 :: .read 0x0007 :: rest → ∃ lo hi : Byte,
      Sys2Proof.core.run 2 s = .next { s with script := rest, reads := ⟨0x0007, hi⟩ :: ⟨0x0006, lo⟩ :: s.reads }
        ∧ s.ctlen.toNat = lo.toNat + 256 * hi.toNat)
    ∧ (s.script = .read 0x0008 :: .read 0x0009 :: rest → ∃ lo hi : Byte,
      Sys2Proof.core.run 2 s = .next { s with script := rest, reads := ⟨0x0009, hi⟩ :: ⟨0x0008, lo⟩ :: s.reads }
        ∧ s.pwlen.toNat = lo.toNat + 256 * hi.toNat)

/-- R59: the byte written to a writable location, `CMD` among them, is what the next read of it returns, whatever command the write ran. -/
def Obligations.WrittenByteReadsBack : Prop :=
  ∀ (s : State) (a : Addr) (v : Byte) (rest : List HostOp),
    s.Inv Config.engine → Writable Config.engine a → s.script = .write a v :: .read a :: rest →
      ∃ t, Sys2Proof.core.run 2 s = .next t ∧ t.reads = { addr := a, data := v } :: s.reads ∧ t.script = rest

/-! The S-box and the permutation -/

/-- R93: SBF replaces every lane of `B` by its S-box entry and changes nothing else; with the spec's worked example. -/
def Obligations.SbfSubstitutesEveryLane : Prop :=
  (∀ s : State, exec .sbf s = .next (ok { s with b := Vector.ofFn fun i => Config.engine.sbox s.b[i] }))
    ∧ (cmdSbf vectors (withBK counting counting)).b =
        #v[0x63, 0x7c, 0x77, 0x7b, 0xf2, 0x6b, 0x6f, 0xc5, 0x30, 0x01, 0x67, 0x2b, 0xfe, 0xd7, 0xab, 0x76]

/-- R94: SBI replaces every lane of `B` by its inverse S-box entry and changes nothing else; it undoes SBF and SBF undoes it; with the spec's worked
example. -/
def Obligations.SbiInvertsEveryLane : Prop :=
  (∀ s : State, exec .sbi s = .next (ok { s with b := Vector.ofFn fun i => Config.engine.sbox.symm s.b[i] }))
    ∧ (∀ s : State, ∃ t u, exec .sbf s = .next t ∧ exec .sbi t = .next u ∧ u = ok s)
    ∧ (∀ s : State, ∃ t u, exec .sbi s = .next t ∧ exec .sbf t = .next u ∧ u = ok s)
    ∧ (cmdSbi vectors (withBK
        #v[0x63, 0x7c, 0x77, 0x7b, 0xf2, 0x6b, 0x6f, 0xc5, 0x30, 0x01, 0x67, 0x2b, 0xfe, 0xd7, 0xab, 0x76] counting)).b
        = counting

/-- R102: PRM gives lane i the byte of lane `PERM[i]`, moves bytes without changing the multiset of their values, leaves a block of equal bytes as it is,
and changes nothing else; with the spec's worked example. -/
def Obligations.PrmGathersTheBytes : Prop :=
  (∀ s : State, exec .prm s = .next (ok { s with b := Vector.ofFn fun i => s.b[Config.engine.perm i] }))
    ∧ (∀ s : State, ∃ t, exec .prm s = .next t ∧ t.b.toList.Perm s.b.toList)
    ∧ (∀ (s : State) (x : Byte), s.b = Vector.replicate 16 x → ∃ t, exec .prm s = .next t ∧ t.b = s.b)
    ∧ (∀ s : State, s.b = counting →
        ∃ t, exec .prm s = .next t ∧ ∀ i : Fin 16, t.b[i] = BitVec.ofNat 8 (Config.engine.perm i).val)
    ∧ (cmdPrm vectors (withBK counting counting)).b =
        #v[0x03, 0x0a, 0x01, 0x08, 0x0f, 0x06, 0x0d, 0x04, 0x0b, 0x02, 0x09, 0x00, 0x07, 0x0e, 0x05, 0x0c]

/-- R103: UPR gives lane `PERM[i]` the byte of lane i and changes nothing else; it undoes PRM and PRM undoes it; with the spec's two worked
examples. -/
def Obligations.UprScattersTheBytes : Prop :=
  (∀ s : State, ∃ t, exec .upr s = .next t ∧ t = ok { s with b := t.b }
      ∧ ∀ i : Fin 16, t.b[Config.engine.perm i] = s.b[i])
    ∧ (∀ s : State, ∃ t u, exec .prm s = .next t ∧ exec .upr t = .next u ∧ u = ok s)
    ∧ (∀ s : State, ∃ t u, exec .upr s = .next t ∧ exec .prm t = .next u ∧ u = ok s)
    ∧ (cmdUpr vectors (withBK
        #v[0x03, 0x0a, 0x01, 0x08, 0x0f, 0x06, 0x0d, 0x04, 0x0b, 0x02, 0x09, 0x00, 0x07, 0x0e, 0x05, 0x0c] counting)).b
        = counting
    ∧ (cmdUpr vectors (withBK counting counting)).b =
        #v[0x0b, 0x02, 0x09, 0x00, 0x07, 0x0e, 0x05, 0x0c, 0x03, 0x0a, 0x01, 0x08, 0x0f, 0x06, 0x0d, 0x04]

/-! The block transform -/

/-- R131 with R130: ROT exchanges columns 0 and 2, 1 and 3 and changes nothing else; with the spec's worked example. -/
def Obligations.RotExchangesTheColumns : Prop :=
  (∀ s : State, ∃ t, exec .rot s = .next t ∧ t = ok { s with b := t.b }
      ∧ (∀ r c : Fin 4, t.b[4 * r.val + c.val] = s.b[4 * r.val + (c.val + 2) % 4])
      ∧ ∀ i : Fin 16, t.b[i] = s.b.toList.getD (i.val ^^^ 2) 0x00)
    ∧ (cmdRot (withBK counting counting)).b =
        #v[0x02, 0x03, 0x00, 0x01, 0x06, 0x07, 0x04, 0x05, 0x0a, 0x0b, 0x08, 0x09, 0x0e, 0x0f, 0x0c, 0x0d]

/-- R132: the rotation is its own inverse, on every block and so for the command; there is no second rotation command. -/
def Obligations.RotTwiceRestoresTheBlock : Prop :=
  (∀ m : Block, rotCols (rotCols m) = m)
    ∧ (∀ s : State, ∃ t u, exec .rot s = .next t ∧ exec .rot t = .next u ∧ u = ok s)
    ∧ ∃ why, decode 0x31 = .rejected why

/-- R133: XKY exclusive-ors every lane of `B` with the same lane of `K` and changes nothing else; with a zero key `B` is unchanged; with the spec's worked
example. -/
def Obligations.XkyXorsEveryLaneWithTheKey : Prop :=
  (∀ s : State, exec .xky s = .next (ok { s with b := Vector.ofFn fun i => s.b[i] ^^^ s.k[i] }))
    ∧ (∀ s : State, s.k = Vector.replicate 16 0x00 → exec .xky s = .next (ok s))
    ∧ (cmdXky (withBK counting keyTest)).b =
        #v[0x65, 0x35, 0x32, 0x34, 0x62, 0x33, 0x3f, 0x63, 0x30, 0x3a, 0x3b, 0x68, 0x3e, 0x34, 0x3a, 0x6d]

/-- R134: the exclusive-or with a fixed key is its own inverse; there is no second key command. -/
def Obligations.XkyTwiceRestoresTheBlock : Prop :=
  (∀ b k : Byte, (b ^^^ k) ^^^ k = b)
    ∧ (∀ s : State, ∃ t u, exec .xky s = .next t ∧ exec .xky t = .next u ∧ u = ok s)
    ∧ ∃ why, decode 0x41 = .rejected why

/-- R135: BFW is the formula `SBOX[b[PERM[i xor 2]]] xor k[i]` in every lane, it is exactly PRM, SBF, ROT, XKY in sequence, and it changes `B` alone; with
the corner cases and the spec's worked example. -/
def Obligations.BfwIsTheForwardTransform : Prop :=
  (∀ s : State, ∃ t, exec .bfw s = .next t ∧ t = ok { s with b := t.b }
      ∧ (∀ i j : Fin 16, j.val = i.val ^^^ 2 → t.b[i] = Config.engine.sbox s.b[Config.engine.perm j] ^^^ s.k[i])
      ∧ (∃ t1 t2 t3, exec .prm s = .next t1 ∧ exec .sbf t1 = .next t2 ∧ exec .rot t2 = .next t3 ∧ exec .xky t3 = .next t)
      ∧ (s.k = Vector.replicate 16 0x00 →
          t.b = rotCols (subAll Config.engine (permute Config.engine s.b)))
      ∧ (s.b = Vector.replicate 16 0x00 → ∀ i : Fin 16, t.b[i] = Config.engine.sbox 0x00 ^^^ s.k[i]))
    ∧ (cmdBfw vectors (withBK helloBlock keyTest)).b = helloCipher

/-- R137: BIN undoes the four steps in reverse order: lane `PERM[i]` is `INV_SBOX[y[i xor 2] xor k[i xor 2]]`; it is exactly XKY, ROT, SBI, UPR in sequence,
and it changes `B` alone; with the spec's worked example. -/
def Obligations.BinIsTheInverseTransform : Prop :=
  (∀ s : State, ∃ t, exec .bin s = .next t ∧ t = ok { s with b := t.b }
      ∧ (∀ i j : Fin 16, j.val = i.val ^^^ 2 →
          t.b[Config.engine.perm i] = Config.engine.sbox.symm (s.b[j] ^^^ s.k[j]))
      ∧ ∃ t1 t2 t3, exec .xky s = .next t1 ∧ exec .rot t1 = .next t2 ∧ exec .sbi t2 = .next t3 ∧ exec .upr t3 = .next t)
    ∧ (cmdBin vectors (withBK helloCipher keyTest)).b = helloBlock

/-- R138: for every block and key BIN undoes BFW and BFW undoes BIN, for a fixed key the transform is a bijection on blocks, and with another key the result is the
block the rule gives and no error is reported. -/
def Obligations.BlockTransformIsInvertible : Prop :=
  (∀ s : State, ∃ t u, exec .bfw s = .next t ∧ exec .bin t = .next u ∧ u = ok s)
    ∧ (∀ s : State, ∃ t u, exec .bin s = .next t ∧ exec .bfw t = .next u ∧ u = ok s)
    ∧ (∀ (c : Config) (k : Block), Function.Bijective fun b => forward c b k)
    ∧ (∀ (c : Config) (b k k' : Block), inverse c (forward c b k) k' =
        unpermute c (subInvAll c (xorKey (subAll c (permute c b)) (rotCols (xorKey k k')))))
    ∧ ∀ (s : State) (k' : Block), ∃ t u, exec .bfw s = .next t ∧ exec .bin { t with k := k' } = .next u
        ∧ u.b = inverse Config.engine (forward Config.engine s.b s.k) k' ∧ u.err = .noError

/-! Key derivation -/

/-- R119: KDF derives `K` from the first PWLEN bytes of `PW` and the 16 bytes of `TS` and changes nothing else; with the empty password the empty
string is hashed; a password longer than its buffer raises `LengthError`; with the spec's worked example. -/
def Obligations.KdfDerivesTheKeyMatrix : Prop :=
  (∀ s : State, s.pwlen.toNat ≤ Config.engine.pwMax →
      exec .kdf s = .next (ok { s with
        k := derive Config.engine ((List.range s.pwlen.toNat).map fun i => s.pw.load i) s.ts.toList }))
    ∧ (∀ s : State, s.pwlen = 0 → exec .kdf s = .next (ok { s with k := derive Config.engine [] s.ts.toList }))
    ∧ (∀ s : State, Config.engine.pwMax < s.pwlen.toNat → exec .kdf s = .next (failed .lengthError s))
    ∧ ErrCode.lengthError.code = 0x05
    ∧ derive vectors [0x74, 0x65, 0x73, 0x74]
        [0x32, 0x30, 0x32, 0x34, 0x2d, 0x30, 0x31, 0x2d, 0x30, 0x31, 0x20, 0x30, 0x30, 0x3a, 0x30, 0x30] = keyTest

/-- R118: the key matrix in bytes: byte i is the hex character of the high (i even) or low (i odd) nibble of byte i div 2 of the exclusive-or of the digests;
so it is what the hex encoder gives for those 8 bytes, every byte is one of 16 values with bit 7 zero, and the digests' bytes from 8 on do not matter. -/
def Obligations.KeyMatrixIsTheHexOfTheFirstEightDigestBytes : Prop :=
  ∀ (c : Config) (pw ts : List Byte),
    (∀ (i : Nat) (h : i < 16),
      (derive c pw ts)[i] =
        if i % 2 = 0 then hexChar (hiNibble ((c.hash256 pw)[i / 2] ^^^ (c.hash256 ts)[i / 2]))
        else hexChar (loNibble ((c.hash256 pw)[i / 2] ^^^ (c.hash256 ts)[i / 2])))
    ∧ (∀ b : Block, (∀ (j : Nat) (h : j < 8), b[j] = (c.hash256 pw)[j] ^^^ (c.hash256 ts)[j]) →
        ∀ (i : Nat) (h : i < 16), (derive c pw ts)[i] = (hexEnc b)[i])
    ∧ (∀ (i : Nat) (h : i < 16),
        ((0x30 ≤ (derive c pw ts)[i].toNat ∧ (derive c pw ts)[i].toNat ≤ 0x39)
          ∨ (0x61 ≤ (derive c pw ts)[i].toNat ∧ (derive c pw ts)[i].toNat ≤ 0x66))
        ∧ (derive c pw ts)[i].getLsbD 7 = false)
    ∧ ∀ (d : Config) (pw' ts' : List Byte),
        (∀ (j : Nat) (h : j < 8),
          (c.hash256 pw)[j] ^^^ (c.hash256 ts)[j] = (d.hash256 pw')[j] ^^^ (d.hash256 ts')[j]) →
        derive c pw ts = derive d pw' ts'

/-! The hex codec -/

/-- R151 with R150: HXE writes the two lowercase hex characters of every byte of `B` to `HX`, the high nibble's first, and changes nothing else; with the spec's worked
example and corner cases. -/
def Obligations.HxeRendersTheBlockInHex : Prop :=
  (∀ s : State, ∃ t, exec .hxe s = .next t ∧ t = ok { s with hx := t.hx }
      ∧ (∀ i : Fin 16, t.hx[2 * i.val] = hexChar (s.b[i].toNat / 16) ∧ t.hx[2 * i.val + 1] = hexChar (s.b[i].toNat % 16))
      ∧ (∀ i : Fin 16, s.b[i] = 0x00 → t.hx[2 * i.val] = 0x30 ∧ t.hx[2 * i.val + 1] = 0x30)
      ∧ (∀ i : Fin 16, s.b[i] = 0xff → t.hx[2 * i.val] = 0x66 ∧ t.hx[2 * i.val + 1] = 0x66)
      ∧ ∀ n : Fin 32, (0x30 ≤ t.hx[n].toNat ∧ t.hx[n].toNat ≤ 0x39) ∨ (0x61 ≤ t.hx[n].toNat ∧ t.hx[n].toNat ≤ 0x66))
    ∧ (cmdHxe (withBK helloCipher counting)).hx = helloHex

/-- R153 with R152: HXD turns 32 hex digits into the 16 bytes they spell and changes `B` alone; one character that is no hex digit raises `DecodingError` and changes
nothing; with the spec's worked examples (small letters, capitals, a character `g`). -/
def Obligations.HxdReadsTheBlockFromHex : Prop :=
  (∀ s : State, (∀ n : Fin 32, hexVal s.hx[n] ≠ none) →
      ∃ t, exec .hxd s = .next t ∧ t = ok { s with b := t.b }
        ∧ ∀ (i : Fin 16) (x y : Nat), hexVal s.hx[2 * i.val] = some x → hexVal s.hx[2 * i.val + 1] = some y →
            t.b[i].toNat = 16 * x + y)
    ∧ (∀ (s : State) (n : Fin 32), hexVal s.hx[n] = none → exec .hxd s = .next (failed .decodingError s))
    ∧ ErrCode.decodingError.code = 0x02
    ∧ (cmdHxd { State.reset with hx := helloHex }).b = helloCipher
    ∧ (cmdHxd { State.reset with hx := helloHex.map fun ch => if 0x61 ≤ ch.toNat then ch - 0x20 else ch }).b = helloCipher
    ∧ (cmdHxd { State.reset with hx := helloHex.set 1 0x67 }).err = .decodingError

/-- R152, R15: the hex digits are 0 to 9, a to f and A to F, with their values, and nothing else is one. -/
def Obligations.HexDigitsAreTheirCharacters : Prop :=
  ∀ (ch : Byte) (v : Nat), hexVal ch = some v ↔
    (0x30 ≤ ch.toNat ∧ ch.toNat ≤ 0x39 ∧ v + 0x30 = ch.toNat)
    ∨ (0x61 ≤ ch.toNat ∧ ch.toNat ≤ 0x66 ∧ v + 0x61 = ch.toNat + 10)
    ∨ (0x41 ≤ ch.toNat ∧ ch.toNat ≤ 0x46 ∧ v + 0x41 = ch.toNat + 10)

/-- R154: the decoder undoes the encoder, so HXD after HXE restores `B` and raises nothing; the encoder undoes the decoder up to letter case. -/
def Obligations.HexCodecRoundTrips : Prop :=
  (∀ b : Block, hexDec (hexEnc b) = some b)
    ∧ (∀ s : State, ∃ t u, exec .hxe s = .next t ∧ exec .hxd t = .next u ∧ u.b = s.b ∧ u.err = .noError)
    ∧ ∀ (x : HexChars) (b : Block), hexDec x = some b → hexEnc b = x.map foldCase

/-! ENC -/

/-- R162, R163, R186: the chunk count and the final chunk's length. -/
def Obligations.ChunkCountAndFinalLength : Prop :=
  ∀ len : Nat,
    blockCount len = max 1 ((len + 15) / 16) ∧ 16 * (blockCount len - 1) + finalLen len = len
    ∧ finalLen len ≤ 16 ∧ (finalLen len = 0 ↔ len = 0)
    ∧ ((finalLen len = 14 ∨ finalLen len = 15) ↔ (len % 16 = 14 ∨ len % 16 = 15))

/-- R164 with R166 and R33: a full chunk is used as it is; a short final chunk of n ≤ 13 bytes is followed by 13 - n filler bytes, each a draw of its own from `PAD_ALPHABET`, and
by its length in three decimal digits. -/
def Obligations.ShortFinalChunkIsPadded : Prop :=
  ∀ (c : Config) (s : State) (nblk n j i : Nat) (h : i < 16),
    (j + 1 < nblk ∨ n = 16 → (chunkBlock c nblk n s j)[i] = s.msg.load (16 * j + i))
    ∧ (nblk ≤ j + 1 → n ≤ 13 →
        (i < n → (chunkBlock c nblk n s j)[i] = s.msg.load (16 * j + i))
        ∧ (n ≤ i → i < 13 → (chunkBlock c nblk n s j)[i] = fillerByte c (s.fillerDraws + (i - n))
            ∧ (chunkBlock c nblk n s j)[i] ∈ padAlphabet c)
        ∧ (i = 13 → (chunkBlock c nblk n s j)[i] = BitVec.ofNat 8 (0x30 + n / 100))
        ∧ (i = 14 → (chunkBlock c nblk n s j)[i] = BitVec.ofNat 8 (0x30 + n / 10 % 10))
        ∧ (i = 15 → (chunkBlock c nblk n s j)[i] = BitVec.ofNat 8 (0x30 + n % 10)))

/-- R10: `PAD_ALPHABET` holds the 52 letters, the 10 digits and some punctuation, which is ASCII's by the model's choice (log 16), and every draw is an element of it. -/
def Obligations.FillerComesFromThePadAlphabet : Prop :=
  ∀ c : Config,
    (∀ x : Byte, (0x41 ≤ x.toNat ∧ x.toNat ≤ 0x5A) ∨ (0x61 ≤ x.toNat ∧ x.toNat ≤ 0x7A) ∨ (0x30 ≤ x.toNat ∧ x.toNat ≤ 0x39) →
      x ∈ padAlphabet c)
    ∧ (∃ x ∈ padAlphabet c, (0x21 ≤ x.toNat ∧ x.toNat ≤ 0x2F) ∨ (0x3A ≤ x.toNat ∧ x.toNat ≤ 0x40)
        ∨ (0x5B ≤ x.toNat ∧ x.toNat ≤ 0x60) ∨ (0x7B ≤ x.toNat ∧ x.toNat ≤ 0x7E))
    ∧ ∀ n, fillerByte c n ∈ padAlphabet c

/-- R194: a length register above its buffer's size raises `LengthError` in KDF, ENC and DEC before anything else is tested, and nothing but `ERR` changes. -/
def Obligations.LengthErrorComesFirst : Prop :=
  ∀ s : State,
    (Config.engine.pwMax < s.pwlen.toNat →
      exec .kdf s = .next (failed .lengthError s) ∧ exec .enc s = .next (failed .lengthError s)
        ∧ exec .dec s = .next (failed .lengthError s))
    ∧ (16 * Config.engine.maxBlocks < s.mlen.toNat → exec .enc s = .next (failed .lengthError s))
    ∧ (32 * Config.engine.maxBlocks < s.ctlen.toNat → exec .dec s = .next (failed .lengthError s))
    ∧ ErrCode.lengthError.code = 0x05

/-- R195, R165: with lengths in bounds, a message whose length modulo 16 is 14 or 15 raises `PaddingOverflowError`, and nothing but `ERR` changes: no draw is made. No other length
does, a positive multiple of 16 among them. -/
def Obligations.UnpaddableFinalChunkOverflows : Prop :=
  ∀ s : State, s.mlen.toNat ≤ Config.engine.msgSize → s.pwlen.toNat ≤ Config.engine.pwMax →
    ((s.mlen.toNat % 16 = 14 ∨ s.mlen.toNat % 16 = 15) → exec .enc s = .next (failed .paddingOverflowError s))
    ∧ (s.mlen.toNat % 16 < 14 → ∃ t, exec .enc s = .next t ∧ t.err = .noError)
    ∧ ErrCode.paddingOverflowError.code = 0x03

/-- R169 with R167, R168 and R171: what a successful ENC leaves, for every configuration, and that the machine's ENC completes so. -/
def Obligations.EncWritesTheCiphertext : Prop :=
  (∀ (c : Config) (s : State), s.ct.wf → EncRuns c s → EncEnds c s (cmdEnc c s))
    ∧ ∀ s : State, s.ct.wf → EncRuns Config.engine s → ∃ t, exec .enc s = .next t ∧ EncEnds Config.engine s t

/-- R140: equal full chunks of a message give equal ciphertext blocks, wherever they stand. -/
def Obligations.EqualChunksGiveEqualCiphertextBlocks : Prop :=
  ∀ (c : Config) (s : State) (j k : Nat), s.ct.wf → EncRuns c s →
    16 * j + 16 ≤ s.mlen.toNat → 16 * k + 16 ≤ s.mlen.toNat →
    (∀ i < 16, s.msg.load (16 * j + i) = s.msg.load (16 * k + i)) →
    ∀ i < 32, (cmdEnc c s).ct.load (32 * j + i) = (cmdEnc c s).ct.load (32 * k + i)

/-! DEC -/

/-- R172: with lengths in bounds, an odd length, a character that is no hex digit, or a length that is no multiple of 32 raises `DecodingError`, and nothing but `ERR` changes. No other
ciphertext does, the empty one among them. -/
def Obligations.MalformedCiphertextIsRejected : Prop :=
  ∀ s : State, s.ctlen.toNat ≤ Config.engine.ctSize → s.pwlen.toNat ≤ Config.engine.pwMax →
    ((s.ctlen.toNat % 2 = 1 ∨ (∃ m < s.ctlen.toNat, hexVal (s.ct.load m) = none) ∨ s.ctlen.toNat % 32 ≠ 0) →
      exec .dec s = .next (failed .decodingError s))
    ∧ (DecRuns Config.engine s → ∃ t, exec .dec s = .next t ∧ t.err ≠ .decodingError)
    ∧ (s.ctlen = 0 → ∃ t, exec .dec s = .next t ∧ t.err = .padFormatError)
    ∧ ErrCode.decodingError.code = 0x02

/-- R178 with R173, R174, R179 and R180: what DEC leaves once its checks have passed, for every configuration, and that the machine's DEC completes so. -/
def Obligations.DecReconstructsTheMessage : Prop :=
  (∀ (c : Config) (s : State), s.msg.wf → DecRuns c s → DecEnds c s (cmdDec c s))
    ∧ ∀ s : State, s.msg.wf → DecRuns Config.engine s → ∃ t, exec .dec s = .next t ∧ DecEnds Config.engine s t

/-- R180: with no ciphertext DEC raises `PadFormatError`, `MLEN` is 0, `K` is cleared and nothing else changes. -/
def Obligations.EmptyCiphertextIsAPadFormatError : Prop :=
  ∀ s : State, s.ctlen = 0 → s.pwlen.toNat ≤ Config.engine.pwMax →
    exec .dec s = .next (failed .padFormatError { s with mlen := 0, k := Vector.replicate 16 0x00 })

/-- R184: ENC and DEC leave `K` zero on success and on `PadFormatError`, and as it was on the errors raised before the key is derived. -/
def Obligations.KeyIsClearedByEncAndDec : Prop :=
  (∀ s : State, ∃ t, exec .enc s = .next t
      ∧ (t.err = .noError → t.k = Vector.replicate 16 0x00)
      ∧ (t.err = .lengthError ∨ t.err = .paddingOverflowError → t.k = s.k))
    ∧ ∀ s : State, ∃ t, exec .dec s = .next t
        ∧ (t.err = .noError ∨ t.err = .padFormatError → t.k = Vector.replicate 16 0x00)
        ∧ (t.err = .lengthError ∨ t.err = .decodingError → t.k = s.k)

/-! ENC, then DEC -/

/-- R182: a message of at most 13 bytes round-trips, for every password, every draw and every value of the parameters; `MSG[0 .. 15]` then holds the padded message. -/
def Obligations.ShortMessagesRoundTrip : Prop :=
  ∀ s : State, s.msg.wf → s.ct.wf → s.mlen.toNat ≤ 13 → s.pwlen.toNat ≤ Config.engine.pwMax →
    ∃ t u, exec .enc s = .next t ∧ exec .dec t = .next u
      ∧ u.err = .noError ∧ u.mlen = s.mlen ∧ message u = message s
      ∧ ∀ (i : Nat) (h : i < 16), u.msg.load i = (chunkBlock Config.engine 1 s.mlen.toNat s 0)[i]

/-- R176: the defect. For a message of two or more chunks with a short final chunk of n bytes, DEC of ENC's output reports no error and returns the first n bytes of the message, while the whole
reconstructed string, the message and then the padding, stands in `MSG`; for every configuration, and on the machine. -/
def Obligations.LongMessagesAreTruncatedToTheFinalLength : Prop :=
  (∀ (c : Config) (s : State), s.msg.wf → s.ct.wf → 16 < s.mlen.toNat → EncRuns c s → s.mlen.toNat % 16 ≠ 0 →
      (cmdDec c (cmdEnc c s)).err = .noError ∧ (cmdDec c (cmdEnc c s)).mlen.toNat = s.mlen.toNat % 16
        ∧ message (cmdDec c (cmdEnc c s)) = (message s).take (s.mlen.toNat % 16)
        ∧ (∀ i < s.mlen.toNat, (cmdDec c (cmdEnc c s)).msg.load i = s.msg.load i)
        ∧ ∀ j < blockCount s.mlen.toNat, ∀ (i : Nat) (h : i < 16), (cmdDec c (cmdEnc c s)).msg.load (16 * j + i) =
            (chunkBlock c (blockCount s.mlen.toNat) (finalLen s.mlen.toNat) s j)[i])
    ∧ ∀ s : State, exec .enc s = .next (cmdEnc Config.engine s) ∧ exec .dec s = .next (cmdDec Config.engine s)

/-- R181: a message whose length is a positive multiple of 16 carries no suffix, so DEC of ENC's output strips by the message's own last three bytes; the bytes of the message all stand in `MSG`. -/
def Obligations.UnpaddedMessagesAreStrippedByTheirOwnTail : Prop :=
  ∀ (c : Config) (s : State), s.msg.wf → s.ct.wf → 0 < s.mlen.toNat → s.mlen.toNat % 16 = 0 → EncRuns c s →
    (∀ i < s.mlen.toNat, (cmdDec c (cmdEnc c s)).msg.load i = s.msg.load i)
    ∧ (∀ d2 d1 d0, SuffixDigits s.msg s.mlen.toNat d2 d1 d0 →
        (cmdDec c (cmdEnc c s)).err = .noError
          ∧ (cmdDec c (cmdEnc c s)).mlen.toNat = min (100 * d2 + 10 * d1 + d0) s.mlen.toNat)
    ∧ ((∀ d2 d1 d0, ¬ SuffixDigits s.msg s.mlen.toNat d2 d1 d0) →
        (cmdDec c (cmdEnc c s)).err = .padFormatError ∧ (cmdDec c (cmdEnc c s)).mlen = s.mlen)

/-! The whole machine -/

/-- R198: which errors a command can end with, on every state; every command completes. -/
def Obligations.ErrorsEachCommandCanRaise : Prop :=
  ∀ (i : Instr) (s : State), ∃ t, exec i s = .next t ∧ t.busy = false
    ∧ (i ∈ [.sbf, .sbi, .prm, .upr, .rot, .xky, .bfw, .bin, .hxe] → t.err = .noError)
    ∧ (i = .kdf → t.err ∈ [ErrCode.noError, .lengthError])
    ∧ (i = .hxd → t.err ∈ [ErrCode.noError, .decodingError])
    ∧ (i = .enc → t.err ∈ [ErrCode.noError, .lengthError, .paddingOverflowError])
    ∧ (i = .dec → t.err ∈ [ErrCode.noError, .lengthError, .decodingError, .padFormatError])

/-- R76 (the column "Writes"), R29: what no command writes, and what only some do. -/
def Obligations.CommandsWriteOnlyTheirOperands : Prop :=
  ∀ (i : Instr) (s : State), ∃ t, exec i s = .next t
    ∧ t.cmd = s.cmd ∧ t.pw = s.pw ∧ t.pwlen = s.pwlen ∧ t.script = s.script ∧ t.reads = s.reads
    ∧ (i ≠ .enc → t.ts = s.ts ∧ t.ct = s.ct ∧ t.ctlen = s.ctlen ∧ t.nowDraws = s.nowDraws
        ∧ t.fillerDraws = s.fillerDraws)
    ∧ (i ≠ .dec → t.msg = s.msg ∧ t.mlen = s.mlen)
    ∧ (i ∉ [.kdf, .enc, .dec] → t.k = s.k)
    ∧ (i ∉ [.hxe, .enc, .dec] → t.hx = s.hx)
    ∧ (i ∈ [.kdf, .hxe] → t.b = s.b)

/-- R28, R203: `ERR` is not sticky: the outcome of a command does not depend on the error before it. -/
def Obligations.OutcomeIgnoresTheErrorBefore : Prop :=
  ∀ (i : Instr) (s : State) (e : ErrCode) (x : Bool), exec i { s with err := e, busy := x } = exec i s

/-- R63, R31: no command reads a buffer byte at or beyond the length register's value: buffers that agree below it give the same outcome, but for that buffer's own bytes. -/
def Obligations.BytesBeyondTheLengthAreIgnored : Prop :=
  ∀ (i : Instr) (s : State) (m : Memory), ∃ t, exec i s = .next t
    ∧ ((∀ a < s.pwlen.toNat, m.load a = s.pw.load a) → exec i { s with pw := m } = .next { t with pw := m })
    ∧ ((∀ a < s.mlen.toNat, m.load a = s.msg.load a) → s.msg.wf → m.wf →
        ∃ u, exec i { s with msg := m } = .next u ∧ { u with msg := t.msg } = t)
    ∧ ((∀ a < s.ctlen.toNat, m.load a = s.ct.load a) → s.ct.wf → m.wf →
        ∃ u, exec i { s with ct := m } = .next u ∧ { u with ct := t.ct } = t)

/-- R59, R215, R222: a host that issues commands one after the other gets, one step a command, exactly the commands' meanings in the order issued.
The script that holds the host's writes is the model's (log 1). -/
def Obligations.CommandScriptIsTheCommandsInOrder : Prop :=
  ∀ (is : List Instr) (s : State) (rest : List HostOp), s.idle →
    Sys2Proof.core.run is.length
        { s with script := is.map (fun i => HostOp.write 0x0000 (encode i)) ++ rest } =
      execSequence is { s with script := rest }

/-- R79: the load pseudo-steps place their strings: after their traffic the password, message, ciphertext or register is the string, the buffer's bytes beyond the string are as
they were, and nothing else has changed. -/
def Obligations.LoadStepsPlaceTheirStrings : Prop :=
  ∀ (s : State) (l : List Byte) (rest : List HostOp), s.Inv Config.engine →
    ((HostStep.ldpw l).wf Config.engine = true → s.script = expand (.ldpw l) ++ rest →
      ∃ t, Sys2Proof.core.run (l.length + 2) s = .next t ∧ password t = l ∧ (∀ a, l.length ≤ a → t.pw.load a = s.pw.load a)
        ∧ t = { s with script := rest, pw := t.pw, pwlen := t.pwlen })
    ∧ ((HostStep.ldmsg l).wf Config.engine = true → s.script = expand (.ldmsg l) ++ rest →
      ∃ t, Sys2Proof.core.run (l.length + 2) s = .next t ∧ message t = l ∧ (∀ a, l.length ≤ a → t.msg.load a = s.msg.load a)
        ∧ t = { s with script := rest, msg := t.msg, mlen := t.mlen })
    ∧ ((HostStep.ldct l).wf Config.engine = true → s.script = expand (.ldct l) ++ rest →
      ∃ t, Sys2Proof.core.run (l.length + 2) s = .next t ∧ ciphertext t = l ∧ (∀ a, l.length ≤ a → t.ct.load a = s.ct.load a)
        ∧ t = { s with script := rest, ct := t.ct, ctlen := t.ctlen })
    ∧ ((HostStep.ldb l).wf Config.engine = true → s.script = expand (.ldb l) ++ rest →
      ∃ t, Sys2Proof.core.run 16 s = .next t ∧ t.b.toList = l ∧ t = { s with script := rest, b := t.b })
    ∧ ((HostStep.ldk l).wf Config.engine = true → s.script = expand (.ldk l) ++ rest →
      ∃ t, Sys2Proof.core.run 16 s = .next t ∧ t.k.toList = l ∧ t = { s with script := rest, k := t.k })
    ∧ ((HostStep.ldts l).wf Config.engine = true → s.script = expand (.ldts l) ++ rest →
      ∃ t, Sys2Proof.core.run 16 s = .next t ∧ t.ts.toList = l ∧ t = { s with script := rest, ts := t.ts })
    ∧ ((HostStep.ldhx l).wf Config.engine = true → s.script = expand (.ldhx l) ++ rest →
      ∃ t, Sys2Proof.core.run 32 s = .next t ∧ t.hx.toList = l ∧ t = { s with script := rest, hx := t.hx })

/-- 10_state.md R38: the reset state is idle, with canonical buffers. -/
def Obligations.ResetStateIsWellFormed : Prop := State.reset.Inv Config.engine

/-- R215, R63: every step from an idle state with canonical buffers inside their sizes gives such a state, so `BUSY` is 0 between steps and no command writes an index outside a buffer. -/
def Obligations.StepKeepsTheInvariant : Prop :=
  ∀ s t : State, s.Inv Config.engine → step s = .next t → t.Inv Config.engine

/-- R53, R191, 93_implementation_defined.md: from such a state no run, of any length, ends in a fault or a refusal. -/
def Obligations.EveryRunIsSafe : Prop :=
  ∀ (n : Nat) (s : State), s.Inv Config.engine → SafeRun n s
end

