-- ==== Sys2Proof/Laws/Block.lean ====
section
/-! SUPPORT. The block maps: what each does to a lane, and the inverse laws (40_sbox.md R92, 41_permutation.md R101, 43_block_transform.md R132, R134). -/

namespace Sys2Proof.Machine

/-! Lanes -/

@[simp] theorem subAll_getElem (c : Config) (b : Block) (i : Nat) (h : i < 16) : (subAll c b)[i] = c.sbox b[i] := by
  simp [subAll, subFwd]

@[simp] theorem subInvAll_getElem (c : Config) (b : Block) (i : Nat) (h : i < 16) :
    (subInvAll c b)[i] = c.sbox.symm b[i] := by
  simp [subInvAll, subInv]

@[simp] theorem permute_getElem (c : Config) (b : Block) (i : Nat) (h : i < 16) :
    (permute c b)[i] = b[c.perm ⟨i, h⟩] := by
  simp [permute]

@[simp] theorem unpermute_getElem (c : Config) (b : Block) (i : Nat) (h : i < 16) :
    (unpermute c b)[i] = b[c.perm.symm ⟨i, h⟩] := by
  simp [unpermute]

@[simp] theorem xorKey_getElem (b k : Block) (i : Nat) (h : i < 16) : (xorKey b k)[i] = b[i] ^^^ k[i] := by
  simp [xorKey]

/-- The column shift by two is exclusive-or of the index with 2 (43_block_transform.md R130). -/
theorem column_index (i : Nat) (h : i < 16) : 4 * (i / 4) + (i % 4 + 2) % 4 = i ^^^ 2 := by
  interval_cases i <;> rfl

/-- An index exclusive-ored with 2 stays an index. -/
theorem xor_two_lt {i : Nat} (h : i < 16) : i ^^^ 2 < 16 := by
  interval_cases i <;> decide

theorem rotCols_getElem (m : Block) (i : Nat) (h : i < 16) : (rotCols m)[i] = m[i ^^^ 2]'(xor_two_lt h) := by
  simp only [rotCols, Vector.getElem_ofFn, column_index i h]

/-! Inverses -/

theorem subInvAll_subAll (c : Config) (b : Block) : subInvAll c (subAll c b) = b := by
  ext i h; simp

theorem subAll_subInvAll (c : Config) (b : Block) : subAll c (subInvAll c b) = b := by
  ext i h; simp

theorem unpermute_permute (c : Config) (b : Block) : unpermute c (permute c b) = b := by
  ext i h; simp

theorem permute_unpermute (c : Config) (b : Block) : permute c (unpermute c b) = b := by
  ext i h; simp

theorem rotCols_rotCols (m : Block) : rotCols (rotCols m) = m := by
  ext i h
  rw [rotCols_getElem _ _ h, rotCols_getElem _ _ (xor_two_lt h)]
  simp only [Nat.xor_assoc, Nat.xor_self, Nat.xor_zero]

theorem xorKey_xorKey (b k : Block) : xorKey (xorKey b k) k = b := by
  ext i h; simp

/-! The transform -/

/-- The forward transform in one formula (43_block_transform.md R135). -/
theorem forward_getElem (c : Config) (b k : Block) (i : Nat) (h : i < 16) :
    (forward c b k)[i] = c.sbox (b[c.perm ⟨i ^^^ 2, xor_two_lt h⟩]) ^^^ k[i] := by
  rw [forward, xorKey_getElem _ _ _ h, rotCols_getElem _ _ h, subAll_getElem _ _ _ (xor_two_lt h),
    permute_getElem _ _ _ (xor_two_lt h)]

theorem inverse_forward (c : Config) (b k : Block) : inverse c (forward c b k) k = b := by
  rw [inverse, forward, xorKey_xorKey, rotCols_rotCols, subInvAll_subAll, unpermute_permute]

theorem forward_inverse (c : Config) (y k : Block) : forward c (inverse c y k) k = y := by
  rw [inverse, forward, permute_unpermute, subAll_subInvAll, rotCols_rotCols, xorKey_xorKey]

end Sys2Proof.Machine
end

