-- ==== Sys2Proof/Laws/Memory.lean ====
section
/-! SUPPORT. What reading and writing a buffer does: read after write, the frame of a write, and the canonical form. -/

namespace Sys2Proof.Machine

@[simp] theorem Memory.load_nil (i : Nat) : Memory.load [] i = 0x00 := rfl

/-- An index below every listed one reads as unlisted. -/
theorem Memory.load_of_lt {m : Memory} {i : Nat} (h : ∀ x ∈ m, i < x.1) : m.load i = 0x00 := by
  induction m with
  | nil => rfl
  | cons x m ih =>
    have hx := h x (by simp)
    simp only [Memory.load]
    rw [if_neg (by omega)]
    exact ih fun y hy => h y (by simp [hy])

/-- The key of every entry after a store is the stored index or an old key. -/
theorem Memory.mem_store {m : Memory} {i : Nat} {v : Byte} {x : Host.Cell} (h : x ∈ m.store i v) :
    x ∈ m ∨ (x = (i, v) ∧ v ≠ Memory.unlisted) := by
  induction m with
  | nil => simp only [Memory.store] at h; split at h <;> simp_all
  | cons y m ih =>
    simp only [Memory.store] at h
    split at h
    · rcases List.mem_cons.1 h with h | h
      · exact .inl (by simp [h])
      · rcases ih h with h | h
        · exact .inl (by simp [h])
        · exact .inr h
    · split at h <;> split at h <;> simp_all <;> tauto

/-- A store keeps the canonical form. -/
theorem Memory.wf_store {m : Memory} (h : m.wf) (i : Nat) (v : Byte) : (m.store i v).wf := by
  refine ⟨?_, fun x hx => ?_⟩
  · obtain ⟨hp, -⟩ := h
    induction m with
    | nil => simp only [Memory.store]; split <;> simp
    | cons y m ih =>
      rw [List.pairwise_cons] at hp
      simp only [Memory.store]
      split
      next hlt =>
        refine List.pairwise_cons.2 ⟨fun x hx => ?_, ih hp.2⟩
        rcases Memory.mem_store hx with h | h
        · exact hp.1 x h
        · simpa [h.1] using hlt
      next hnlt =>
        split
        next heq =>
          split
          · exact hp.2
          · exact List.pairwise_cons.2 ⟨fun x hx => heq ▸ hp.1 x hx, hp.2⟩
        next hne =>
          split
          · exact List.pairwise_cons.2 hp
          · refine List.pairwise_cons.2 ⟨fun x hx => ?_, List.pairwise_cons.2 hp⟩
            rcases List.mem_cons.1 hx with h | h
            · subst h; simp only; omega
            · have := hp.1 x h; simp only; omega
  · rcases Memory.mem_store hx with hm | hm
    · exact h.2 x hm
    · simpa [hm.1] using hm.2

/-- A store below the size stays below the size. -/
theorem Memory.within_store {m : Memory} {size i : Nat} (h : m.within size) (hi : i < size) (v : Byte) :
    (m.store i v).within size := by
  intro x hx
  rcases Memory.mem_store hx with hm | hm
  · exact h x hm
  · simpa [hm.1] using hi

/-- Read after write, and the frame of a write. -/
theorem Memory.load_store {m : Memory} (h : m.wf) (i : Nat) (v : Byte) (a : Nat) :
    (m.store i v).load a = if a = i then v else m.load a := by
  obtain ⟨hp, -⟩ := h
  induction m with
  | nil =>
    simp only [Memory.store]
    split
    · simp_all [Memory.load, Memory.unlisted]
    · simp only [Memory.load, eq_comm (a := a)]
  | cons y m ih =>
    rw [List.pairwise_cons] at hp
    have ih := ih hp.2
    simp only [Memory.store]
    split
    next hlt =>
      simp only [Memory.load, ih]
      by_cases h1 : y.1 = a <;> by_cases h2 : a = i <;> simp_all
    next hnlt =>
      split
      next heq =>
        have hm : Memory.load m i = 0x00 := Memory.load_of_lt fun x hx => heq ▸ hp.1 x hx
        split
        · by_cases h2 : a = i
          · simp_all [Memory.unlisted]
          · rw [if_neg h2, Memory.load, if_neg (by omega)]
        · simp only [Memory.load]
          by_cases h2 : a = i
          · simp [h2]
          · rw [if_neg (Ne.symm h2), if_neg h2, if_neg (by omega)]
      next hne =>
        have hm : Memory.load (y :: m) i = 0x00 := Memory.load_of_lt fun x hx => by
          rcases List.mem_cons.1 hx with h | h
          · subst h; omega
          · have := hp.1 x h; omega
        split
        · by_cases h2 : a = i
          · simp_all [Memory.unlisted]
          · rw [if_neg h2]
        · rw [Memory.load]
          by_cases h2 : a = i
          · simp [h2]
          · rw [if_neg (Ne.symm h2), if_neg h2]

/-- A byte string written keeps the canonical form. -/
theorem Memory.wf_storeAll {m : Memory} (h : m.wf) (base : Nat) (vs : List Byte) : (m.storeAll base vs).wf := by
  induction vs generalizing m base with
  | nil => exact h
  | cons v vs ih => exact ih (Memory.wf_store h base v) (base + 1)

/-- A byte string written below the size stays below the size. -/
theorem Memory.within_storeAll {m : Memory} {size base : Nat} {vs : List Byte} (h : m.within size)
    (hi : base + vs.length ≤ size) : (m.storeAll base vs).within size := by
  induction vs generalizing m base with
  | nil => exact h
  | cons v vs ih =>
    simp only [List.length_cons] at hi
    exact ih (Memory.within_store h (by omega) v) (by omega)

/-- Reading after a byte string was written: inside it its element, outside it what was there. -/
theorem Memory.load_storeAll {m : Memory} (h : m.wf) (base : Nat) (vs : List Byte) (a : Nat) :
    (m.storeAll base vs).load a =
      if hin : base ≤ a ∧ a < base + vs.length then vs[a - base]'(by omega) else m.load a := by
  induction vs generalizing m base with
  | nil => rw [dif_neg (by simp)]; rfl
  | cons v vs ih =>
    rw [Memory.storeAll, ih (Memory.wf_store h base v), Memory.load_store h]
    simp only [List.length_cons]
    by_cases h1 : base + 1 ≤ a ∧ a < base + 1 + vs.length
    · rw [dif_pos h1, dif_pos (by omega)]
      rw [List.getElem_cons, dif_neg (by omega)]
      congr 1
    · rw [dif_neg h1]
      by_cases h2 : a = base
      · subst h2; simp
      · rw [if_neg h2, dif_neg (by omega)]

/-- A byte string written leaves every byte outside it alone. -/
theorem Memory.load_storeAll_outside {m : Memory} (h : m.wf) {base : Nat} {vs : List Byte} {a : Nat}
    (ha : a < base ∨ base + vs.length ≤ a) : (m.storeAll base vs).load a = m.load a := by
  rw [Memory.load_storeAll h, dif_neg (by omega)]

/-- A byte string written reads back. -/
theorem Memory.load_storeAll_inside {m : Memory} (h : m.wf) (base : Nat) {vs : List Byte} {i : Nat}
    (hi : i < vs.length) : (m.storeAll base vs).load (base + i) = vs[i] := by
  rw [Memory.load_storeAll h, dif_pos (by omega)]
  congr 1
  omega

@[simp] theorem Memory.length_loadAll (m : Memory) (base n : Nat) : (m.loadAll base n).length = n := by
  simp [Memory.loadAll]

@[simp] theorem Memory.getElem_loadAll (m : Memory) (base n i : Nat) (h : i < (m.loadAll base n).length) :
    (m.loadAll base n)[i] = m.load (base + i) := by
  simp [Memory.loadAll]

/-- Two buffers that agree on a range give the same byte string. -/
theorem Memory.loadAll_congr {m m' : Memory} {base n : Nat} (h : ∀ i < n, m.load (base + i) = m'.load (base + i)) :
    m.loadAll base n = m'.loadAll base n := by
  refine List.ext_getElem (by simp) fun i h1 _ => ?_
  simpa using h i (by simpa using h1)

/-- Equal contents are equal data: a canonical buffer is determined by what it reads as. -/
theorem Memory.ext_of_wf {m m' : Memory} (h : m.wf) (h' : m'.wf) (heq : ∀ i, m.load i = m'.load i) : m = m' := by
  induction m generalizing m' with
  | nil =>
    cases m' with
    | nil => rfl
    | cons y m' =>
      have := heq y.1
      simp only [Memory.load, if_true] at this
      exact absurd this.symm (h'.2 y (by simp))
  | cons x m ih =>
    have hp := List.pairwise_cons.1 h.1
    have hw : Memory.wf m := ⟨hp.2, fun z hz => h.2 z (by simp [hz])⟩
    cases m' with
    | nil =>
      have := heq x.1
      simp only [Memory.load, if_true] at this
      exact absurd this (h.2 x (by simp))
    | cons y m' =>
      have hp' := List.pairwise_cons.1 h'.1
      have hw' : Memory.wf m' := ⟨hp'.2, fun z hz => h'.2 z (by simp [hz])⟩
      have hx : Memory.load (x :: m) x.1 = x.2 := by simp [Memory.load]
      have hy : Memory.load (y :: m') y.1 = y.2 := by simp [Memory.load]
      have hk : x.1 = y.1 := by
        rcases lt_trichotomy x.1 y.1 with hl | hl | hl
        · have : Memory.load (y :: m') x.1 = 0x00 := Memory.load_of_lt fun z hz => by
            rcases List.mem_cons.1 hz with hz | hz
            · simpa [hz] using hl
            · exact lt_trans hl (hp'.1 z hz)
          exact absurd (hx.symm.trans ((heq _).trans this)) (h.2 x (by simp))
        · exact hl
        · have : Memory.load (x :: m) y.1 = 0x00 := Memory.load_of_lt fun z hz => by
            rcases List.mem_cons.1 hz with hz | hz
            · simpa [hz] using hl
            · exact lt_trans hl (hp.1 z hz)
          exact absurd (hy.symm.trans ((heq _).symm.trans this)) (h'.2 y (by simp))
      have hv : x.2 = y.2 := by rw [← hx, heq, hk, hy]
      have hxy : x = y := Prod.ext hk hv
      subst hxy
      congr 1
      refine ih hw hw' fun i => ?_
      by_cases hi : x.1 = i
      · subst hi
        rw [Memory.load_of_lt hp.1, Memory.load_of_lt hp'.1]
      · simpa [Memory.load, hi] using heq i

end Sys2Proof.Machine
end

