-- ==== Sys2Proof/Laws/Bus.lean ====
section
/-! SUPPORT. The address map, window by window (20_memory.md R52, R53), and the length registers' halves (R55). -/

namespace Sys2Proof.Machine

theorem pwMax_le (c : Config) : c.pwMax ≤ 256 := by unfold Config.pwMax; omega

theorem msgSize_le (c : Config) : c.msgSize ≤ 16384 := by unfold Config.msgSize Config.maxBlocks; omega

theorem ctSize_le (c : Config) : c.ctSize ≤ 32768 := by unfold Config.ctSize Config.maxBlocks; omega

theorem pwMax_pos (c : Config) : 1 ≤ c.pwMax := by unfold Config.pwMax; omega

theorem msgSize_pos (c : Config) : 16 ≤ c.msgSize := by unfold Config.msgSize Config.maxBlocks; omega

theorem ctSize_pos (c : Config) : 32 ≤ c.ctSize := by unfold Config.ctSize Config.maxBlocks; omega

/-! The map's two parts -/

/-- Below 0x0080 the configuration does not matter. -/
theorem locate_low (c : Config) {a : Addr} (h : a.toNat < 0x0080) : locate c a = registerLoc a.toNat := if_pos h

theorem locate_high (c : Config) {a : Addr} (h : 0x0080 ≤ a.toNat) : locate c a = windowLoc c a.toNat :=
  if_neg (Nat.not_lt.2 h)

/-- An address given as a base and an index below 2^16. -/
theorem toNat_window {base i : Nat} (h : base + i < 65536) : (BitVec.ofNat 16 (base + i)).toNat = base + i := by
  rw [BitVec.toNat_ofNat]
  exact Nat.mod_eq_of_lt h

/-- A register's address below 0x0080 locates what the table gives. -/
theorem locate_register (c : Config) {n : Nat} (h : n < 0x0080) : locate c (BitVec.ofNat 16 n) = registerLoc n := by
  have ha : (BitVec.ofNat 16 n).toNat = n := Nat.mod_eq_of_lt (Nat.lt_trans h (by decide))
  rw [locate_low c (by rw [ha]; exact h), ha]

/-! The control and length registers -/

theorem locate_cmd (c : Config) : locate c 0x0000 = .cmd := locate_register c (by decide)
theorem locate_status (c : Config) : locate c 0x0001 = .status := locate_register c (by decide)
theorem locate_err (c : Config) : locate c 0x0002 = .err := locate_register c (by decide)
theorem locate_mlenLo (c : Config) : locate c 0x0004 = .mlenLo := locate_register c (by decide)
theorem locate_mlenHi (c : Config) : locate c 0x0005 = .mlenHi := locate_register c (by decide)
theorem locate_ctlenLo (c : Config) : locate c 0x0006 = .ctlenLo := locate_register c (by decide)
theorem locate_ctlenHi (c : Config) : locate c 0x0007 = .ctlenHi := locate_register c (by decide)
theorem locate_pwlenLo (c : Config) : locate c 0x0008 = .pwlenLo := locate_register c (by decide)
theorem locate_pwlenHi (c : Config) : locate c 0x0009 = .pwlenHi := locate_register c (by decide)

/-! The windows -/

theorem locate_b (c : Config) (i : Fin 16) : locate c (BitVec.ofNat 16 (0x0010 + i.val)) = .b i := by
  rw [locate_register c (by omega)]
  revert i
  decide

theorem locate_k (c : Config) (i : Fin 16) : locate c (BitVec.ofNat 16 (0x0020 + i.val)) = .k i := by
  rw [locate_register c (by omega)]
  revert i
  decide

theorem locate_ts (c : Config) (i : Fin 16) : locate c (BitVec.ofNat 16 (0x0030 + i.val)) = .ts i := by
  rw [locate_register c (by omega)]
  revert i
  decide

theorem locate_now (c : Config) (i : Fin 16) : locate c (BitVec.ofNat 16 (0x0040 + i.val)) = .now i := by
  rw [locate_register c (by omega)]
  revert i
  decide

theorem locate_hx (c : Config) (i : Fin 32) : locate c (BitVec.ofNat 16 (0x0060 + i.val)) = .hx i := by
  rw [locate_register c (by omega)]
  revert i
  decide

theorem locate_pw (c : Config) {i : Nat} (h : i < c.pwMax) : locate c (BitVec.ofNat 16 (0x0100 + i)) = .pw i := by
  have hs := pwMax_le c
  have ha := toNat_window (base := 0x0100) (i := i) (by omega)
  rw [locate_high c (by omega), ha]
  simp only [windowLoc, bufferLoc, Nat.add_sub_cancel_left, h, if_true]
  split_ifs <;> first | rfl | omega

theorem locate_msg (c : Config) {i : Nat} (h : i < c.msgSize) : locate c (BitVec.ofNat 16 (0x4000 + i)) = .msg i := by
  have hs := msgSize_le c
  have ha := toNat_window (base := 0x4000) (i := i) (by omega)
  rw [locate_high c (by omega), ha]
  simp only [windowLoc, bufferLoc, Nat.add_sub_cancel_left, h, if_true]
  split_ifs <;> first | rfl | omega

theorem locate_ct (c : Config) {i : Nat} (h : i < c.ctSize) : locate c (BitVec.ofNat 16 (0x8000 + i)) = .ct i := by
  have hs := ctSize_le c
  have ha := toNat_window (base := 0x8000) (i := i) (by omega)
  rw [locate_high c (by omega), ha]
  simp only [windowLoc, bufferLoc, Nat.add_sub_cancel_left, h, if_true]
  split_ifs <;> first | rfl | omega

/-- A location that is a buffer's is inside the buffer. -/
structure Loc.Inside (c : Config) (l : Loc) : Prop where
  pw : ∀ i, l = .pw i → i < c.pwMax
  msg : ∀ i, l = .msg i → i < c.msgSize
  ct : ∀ i, l = .ct i → i < c.ctSize

theorem inside_ite {c : Config} {p : Prop} [Decidable p] {x y : Loc} (hx : x.Inside c) (hy : y.Inside c) :
    (if p then x else y).Inside c := by
  split
  · exact hx
  · exact hy

/-- A hole of the map is no buffer byte. -/
theorem inside_reserved (c : Config) : Loc.reserved.Inside c := ⟨nofun, nofun, nofun⟩

theorem registerLoc_inside (c : Config) (n : Nat) : (registerLoc n).Inside c := by
  unfold registerLoc
  iterate 14 refine inside_ite ⟨nofun, nofun, nofun⟩ ?_
  exact inside_reserved c

theorem bufferLoc_inside (c : Config) (i : Nat) :
    (bufferLoc .pw c.pwMax i).Inside c ∧ (bufferLoc .msg c.msgSize i).Inside c ∧ (bufferLoc .ct c.ctSize i).Inside c := by
  refine ⟨?_, ?_, ?_⟩ <;> unfold bufferLoc <;> split <;> try exact inside_reserved c
  · exact ⟨fun _ e => by injection e with e; exact e ▸ ‹_›, nofun, nofun⟩
  · exact ⟨nofun, fun _ e => by injection e with e; exact e ▸ ‹_›, nofun⟩
  · exact ⟨nofun, nofun, fun _ e => by injection e with e; exact e ▸ ‹_›⟩

theorem windowLoc_inside (c : Config) (n : Nat) : (windowLoc c n).Inside c := by
  unfold windowLoc
  refine inside_ite ?_ (inside_ite ?_ (inside_ite (inside_reserved c) (inside_ite ?_ (inside_reserved c))))
  · exact (bufferLoc_inside c _).2.2
  · exact (bufferLoc_inside c _).2.1
  · exact (bufferLoc_inside c _).1

/-- Every address locates a byte inside its buffer, or no buffer byte (20_memory.md R63). -/
theorem locate_inside (c : Config) (a : Addr) : (locate c a).Inside c :=
  inside_ite (registerLoc_inside c _) (windowLoc_inside c _)
/-- From 0x0080 on there is no register. -/
theorem windowLoc_ne (c : Config) (n : Nat) : windowLoc c n ≠ .status ∧ windowLoc c n ≠ .cmd := by
  unfold windowLoc bufferLoc
  split_ifs <;> exact ⟨nofun, nofun⟩

/-- `STATUS` is at one address alone. -/
theorem locate_eq_status (c : Config) (a : Addr) : locate c a = .status ↔ a = 0x0001 := by
  refine ⟨fun h => ?_, fun h => h ▸ locate_status c⟩
  by_cases hl : a.toNat < 0x0080
  · rw [locate_low c hl] at h
    have table : ∀ n < 0x0080, registerLoc n = .status → n = 1 := by decide
    exact BitVec.eq_of_toNat_eq (table _ hl h)
  · rw [locate_high c (by omega)] at h
    exact absurd h (windowLoc_ne c _).1

/-- `CMD` is at one address alone. -/
theorem locate_eq_cmd (c : Config) (a : Addr) : locate c a = .cmd ↔ a = 0x0000 := by
  refine ⟨fun h => ?_, fun h => h ▸ locate_cmd c⟩
  by_cases hl : a.toNat < 0x0080
  · rw [locate_low c hl] at h
    have table : ∀ n < 0x0080, registerLoc n = .cmd → n = 0 := by decide
    exact BitVec.eq_of_toNat_eq (table _ hl h)
  · rw [locate_high c (by omega)] at h
    exact absurd h (windowLoc_ne c _).2

/-! Halves of a length register -/

theorem loByte_eq (w : Half) : loByte w = BitVec.ofNat 8 w.toNat := by
  apply BitVec.eq_of_toNat_eq; simp [loByte]

theorem hiByte_eq (w : Half) : hiByte w = BitVec.ofNat 8 (w.toNat / 256) := by
  apply BitVec.eq_of_toNat_eq; simp [hiByte, Nat.shiftRight_eq_div_pow]

theorem toNat_append_byte (x y : Byte) : (x ++ y : Half).toNat = 256 * x.toNat + y.toNat := by
  rw [BitVec.toNat_append, Nat.shiftLeft_eq, ← Nat.mul_comm (2 ^ 8)]
  exact (Nat.two_pow_add_eq_or_of_lt y.isLt _).symm

/-- A register is its two halves (20_memory.md R55). -/
theorem halves_join (w : Half) : w.toNat = (loByte w).toNat + 256 * (hiByte w).toNat := by
  rw [loByte_eq, hiByte_eq, BitVec.toNat_ofNat, BitVec.toNat_ofNat]
  omega

theorem setLo_eq (w : Half) (v : Byte) : setLo w v = BitVec.ofNat 16 (w.toNat / 256 * 256 + v.toNat) := by
  apply BitVec.eq_of_toNat_eq
  rw [setLo, toNat_append_byte, hiByte_eq, BitVec.toNat_ofNat, BitVec.toNat_ofNat]
  omega

theorem setHi_eq (w : Half) (v : Byte) : setHi w v = BitVec.ofNat 16 (v.toNat * 256 + w.toNat % 256) := by
  apply BitVec.eq_of_toNat_eq
  rw [setHi, toNat_append_byte, loByte_eq, BitVec.toNat_ofNat, BitVec.toNat_ofNat]
  omega

/-! One host operation on an idle engine -/

/-- A read on an idle engine. -/
theorem hostTurn_read {c : Config} {s : State} {a : Addr} {rest : List HostOp} (hi : s.busy = false)
    (hs : s.script = .read a :: rest) : hostTurn c s = .settled (.next (busRead c a { s with script := rest })) := by
  simp [hostTurn, hs, hostOp, hi]

/-- A write on an idle engine to a location other than `CMD`. -/
theorem hostTurn_write {c : Config} {s : State} {a : Addr} {v : Byte} {rest : List HostOp} (hi : s.busy = false)
    (hs : s.script = .write a v :: rest) (ha : locate c a ≠ .cmd) :
    hostTurn c s = .settled (.next (locWrite v { s with script := rest } (locate c a))) := by
  simp only [hostTurn, hs, hostOp, hi, Bool.false_and, Bool.false_eq_true, if_false]

/-- A write on an idle engine to `CMD`. -/
theorem hostTurn_cmd {c : Config} {s : State} {v : Byte} {rest : List HostOp} (hi : s.busy = false)
    (hs : s.script = .write 0x0000 v :: rest) :
    hostTurn c s = .command v (accept v { s with script := rest }) := by
  simp only [hostTurn, hs, hostOp, hi, Bool.false_and, Bool.false_eq_true, if_false, locate_cmd]

end Sys2Proof.Machine
end

