-- ==== Sys2Proof/Laws/Codec.lean ====
section
/-! SUPPORT. The character codes and the hex codec: digits there and back (00_scope.md R15, 44_hex_codec.md R154), decimal suffixes (45_message_codec.md R166), and the hex characters of a digest's integer (42_key_derivation.md R112 to R115). -/

namespace Sys2Proof.Machine

/-- A hex digit's character has the digit's value (44_hex_codec.md R154). -/
theorem hexVal_hexChar {n : Nat} (h : n < 16) : hexVal (hexChar n) = some n := by
  interval_cases n <;> decide

theorem digitVal_digit {d : Nat} (h : d < 10) : digitVal (digit d) = some d := by
  interval_cases d <;> decide

theorem hiNibble_lt (x : Byte) : hiNibble x < 16 := by
  unfold hiNibble; omega

theorem loNibble_lt (x : Byte) : loNibble x < 16 := by
  unfold loNibble; omega

/-- A byte is its two nibbles (00_scope.md R13). -/
theorem nibbles_join (x : Byte) : BitVec.ofNat 8 (16 * hiNibble x + loNibble x) = x := by
  unfold hiNibble loNibble
  rw [Nat.div_add_mod]
  simp

theorem hexEnc_getElem_even (b : Block) (i : Nat) (h : i < 16) :
    (hexEnc b)[2 * i] = hexChar (hiNibble b[i]) := by
  simp only [hexEnc, Vector.getElem_ofFn]
  rw [if_pos (by omega)]
  congr 3
  omega

theorem hexEnc_getElem_odd (b : Block) (i : Nat) (h : i < 16) :
    (hexEnc b)[2 * i + 1] = hexChar (loNibble b[i]) := by
  simp only [hexEnc, Vector.getElem_ofFn]
  rw [if_neg (by omega)]
  congr 3
  omega

/-- Every character of an encoding is a hex digit. -/
theorem hexVal_hexEnc (b : Block) (n : Nat) (h : n < 32) : (hexVal (hexEnc b)[n]).isSome := by
  simp only [hexEnc, Vector.getElem_ofFn]
  split
  · rw [hexVal_hexChar (hiNibble_lt _)]; rfl
  · rw [hexVal_hexChar (loNibble_lt _)]; rfl

theorem hexDec_eq_some {x : HexChars} (h : ∀ (n : Nat) (hn : n < 32), (hexVal x[n]).isSome) :
    hexDec x = some (Vector.ofFn fun i => BitVec.ofNat 8
      (16 * (hexVal (x[2 * i.val]'(by omega))).getD 0 + (hexVal (x[2 * i.val + 1]'(by omega))).getD 0)) := by
  rw [hexDec, if_pos]
  rw [Vector.all_eq_true]
  exact h

theorem hexDec_eq_none {x : HexChars} {n : Nat} (hn : n < 32) (h : hexVal x[n] = none) : hexDec x = none := by
  rw [hexDec, if_neg]
  rw [Vector.all_eq_true]
  intro hall
  have := hall n hn
  simp [h] at this

/-- The decoder undoes the encoder (44_hex_codec.md R154). -/
theorem hexDec_hexEnc (b : Block) : hexDec (hexEnc b) = some b := by
  rw [hexDec_eq_some (hexVal_hexEnc b)]
  congr 1
  ext i h
  rw [Vector.getElem_ofFn, hexEnc_getElem_even _ _ h, hexEnc_getElem_odd _ _ h, hexVal_hexChar (hiNibble_lt _),
    hexVal_hexChar (loNibble_lt _)]
  simp only [Option.getD_some, nibbles_join]

/-- A digest's integer is below 2^256. -/
theorem foldl_bytes_lt (l : List Byte) (acc : Nat) :
    l.foldl (fun acc x => 256 * acc + x.toNat) acc < (acc + 1) * 256 ^ l.length := by
  induction l generalizing acc with
  | nil => simp
  | cons x l ih =>
    rw [List.foldl_cons, List.length_cons, pow_succ]
    refine lt_of_lt_of_le (ih _) ?_
    have hx : x.toNat < 256 := x.isLt
    calc (256 * acc + x.toNat + 1) * 256 ^ l.length ≤ (256 * (acc + 1)) * 256 ^ l.length :=
          Nat.mul_le_mul_right _ (by omega)
      _ = (acc + 1) * (256 ^ l.length * 256) := by ring

/-- Byte j of a digest's integer, counted from the most significant, is the digest's byte j (42_key_derivation.md R112). -/
theorem foldl_bytes_digit (l : List Byte) (acc j : Nat) (h : j < l.length) :
    l.foldl (fun acc x => 256 * acc + x.toNat) acc / 256 ^ (l.length - 1 - j) % 256 = l[j].toNat := by
  induction l generalizing acc j with
  | nil => simp at h
  | cons x l ih =>
    rw [List.foldl_cons]
    cases j with
    | zero =>
      have hlen : (x :: l).length - 1 - 0 = l.length := by simp
      rw [hlen]
      have hq : ∀ (l : List Byte) (a : Nat), l.foldl (fun acc x => 256 * acc + x.toNat) a / 256 ^ l.length = a := by
        intro l
        induction l with
        | nil => simp
        | cons y l ih =>
          intro a
          rw [List.foldl_cons, List.length_cons, pow_succ, ← Nat.div_div_eq_div_mul, ih]
          have := y.isLt
          omega
      rw [hq]
      have := x.isLt
      simp only [List.getElem_cons_zero]
      omega
    | succ j =>
      have hj : j < l.length := by simpa using h
      have hlen : (x :: l).length - 1 - (j + 1) = l.length - 1 - j := by simp; omega
      rw [hlen, ih _ j hj]
      simp

/-- Byte j of a digest's integer (42_key_derivation.md R112). -/
theorem digestInt_byte (d : Digest) (j : Nat) (h : j < 32) : digestInt d / 256 ^ (31 - j) % 256 = d[j].toNat := by
  have hl : d.toList.length = 32 := by simp
  have := foldl_bytes_digit d.toList 0 j (by omega)
  simpa [digestInt] using this

/-- Byte j of the exclusive-or of two digests' integers is the exclusive-or of their bytes j (42_key_derivation.md R113). -/
theorem digestInt_xor_byte (d e : Digest) (j : Nat) (h : j < 32) :
    (digestInt d ^^^ digestInt e) / 256 ^ (31 - j) % 256 = (d[j] ^^^ e[j]).toNat := by
  rw [BitVec.toNat_xor, ← digestInt_byte d j h, ← digestInt_byte e j h]
  have h1 : (256 : Nat) ^ (31 - j) = 2 ^ (8 * (31 - j)) := by
    rw [pow_mul]; norm_num
  have h2 : (256 : Nat) = 2 ^ 8 := rfl
  rw [h1, ← Nat.shiftRight_eq_div_pow, ← Nat.shiftRight_eq_div_pow, ← Nat.shiftRight_eq_div_pow,
    Nat.shiftRight_xor_distrib]
  conv_lhs => rw [h2]
  conv_rhs => rw [h2]
  exact Nat.xor_mod_two_pow ..

end Sys2Proof.Machine
end

