-- ==== Sys2Proof/Laws/State.lean ====
section
/-! SUPPORT. One lemma per field per named update of the state, true by rfl or by the one unfolding, so that no later proof unfolds a record update. -/

namespace Sys2Proof.Machine

/-! `accept` -/

@[simp] theorem accept_b (v : Byte) (s : State) : (accept v s).b = s.b := rfl
@[simp] theorem accept_k (v : Byte) (s : State) : (accept v s).k = s.k := rfl
@[simp] theorem accept_ts (v : Byte) (s : State) : (accept v s).ts = s.ts := rfl
@[simp] theorem accept_hx (v : Byte) (s : State) : (accept v s).hx = s.hx := rfl
@[simp] theorem accept_cmd (v : Byte) (s : State) : (accept v s).cmd = v := rfl
@[simp] theorem accept_busy (v : Byte) (s : State) : (accept v s).busy = true := rfl
@[simp] theorem accept_err (v : Byte) (s : State) : (accept v s).err = s.err := rfl
@[simp] theorem accept_mlen (v : Byte) (s : State) : (accept v s).mlen = s.mlen := rfl
@[simp] theorem accept_ctlen (v : Byte) (s : State) : (accept v s).ctlen = s.ctlen := rfl
@[simp] theorem accept_pwlen (v : Byte) (s : State) : (accept v s).pwlen = s.pwlen := rfl
@[simp] theorem accept_pw (v : Byte) (s : State) : (accept v s).pw = s.pw := rfl
@[simp] theorem accept_msg (v : Byte) (s : State) : (accept v s).msg = s.msg := rfl
@[simp] theorem accept_ct (v : Byte) (s : State) : (accept v s).ct = s.ct := rfl
@[simp] theorem accept_script (v : Byte) (s : State) : (accept v s).script = s.script := rfl
@[simp] theorem accept_reads (v : Byte) (s : State) : (accept v s).reads = s.reads := rfl
@[simp] theorem accept_nowDraws (v : Byte) (s : State) : (accept v s).nowDraws = s.nowDraws := rfl
@[simp] theorem accept_fillerDraws (v : Byte) (s : State) : (accept v s).fillerDraws = s.fillerDraws := rfl

/-! `endCommand` -/

@[simp] theorem endCommand_b (e : ErrCode) (s : State) : (endCommand e s).b = s.b := rfl
@[simp] theorem endCommand_k (e : ErrCode) (s : State) : (endCommand e s).k = s.k := rfl
@[simp] theorem endCommand_ts (e : ErrCode) (s : State) : (endCommand e s).ts = s.ts := rfl
@[simp] theorem endCommand_hx (e : ErrCode) (s : State) : (endCommand e s).hx = s.hx := rfl
@[simp] theorem endCommand_cmd (e : ErrCode) (s : State) : (endCommand e s).cmd = s.cmd := rfl
@[simp] theorem endCommand_busy (e : ErrCode) (s : State) : (endCommand e s).busy = false := rfl
@[simp] theorem endCommand_err (e : ErrCode) (s : State) : (endCommand e s).err = e := rfl
@[simp] theorem endCommand_mlen (e : ErrCode) (s : State) : (endCommand e s).mlen = s.mlen := rfl
@[simp] theorem endCommand_ctlen (e : ErrCode) (s : State) : (endCommand e s).ctlen = s.ctlen := rfl
@[simp] theorem endCommand_pwlen (e : ErrCode) (s : State) : (endCommand e s).pwlen = s.pwlen := rfl
@[simp] theorem endCommand_pw (e : ErrCode) (s : State) : (endCommand e s).pw = s.pw := rfl
@[simp] theorem endCommand_msg (e : ErrCode) (s : State) : (endCommand e s).msg = s.msg := rfl
@[simp] theorem endCommand_ct (e : ErrCode) (s : State) : (endCommand e s).ct = s.ct := rfl
@[simp] theorem endCommand_script (e : ErrCode) (s : State) : (endCommand e s).script = s.script := rfl
@[simp] theorem endCommand_reads (e : ErrCode) (s : State) : (endCommand e s).reads = s.reads := rfl
@[simp] theorem endCommand_nowDraws (e : ErrCode) (s : State) : (endCommand e s).nowDraws = s.nowDraws := rfl
@[simp] theorem endCommand_fillerDraws (e : ErrCode) (s : State) : (endCommand e s).fillerDraws = s.fillerDraws := rfl

/-! `complete` -/

@[simp] theorem complete_b (s : State) : (complete s).b = s.b := rfl
@[simp] theorem complete_k (s : State) : (complete s).k = s.k := rfl
@[simp] theorem complete_ts (s : State) : (complete s).ts = s.ts := rfl
@[simp] theorem complete_hx (s : State) : (complete s).hx = s.hx := rfl
@[simp] theorem complete_cmd (s : State) : (complete s).cmd = s.cmd := rfl
@[simp] theorem complete_busy (s : State) : (complete s).busy = false := rfl
@[simp] theorem complete_err (s : State) : (complete s).err = .noError := rfl
@[simp] theorem complete_mlen (s : State) : (complete s).mlen = s.mlen := rfl
@[simp] theorem complete_ctlen (s : State) : (complete s).ctlen = s.ctlen := rfl
@[simp] theorem complete_pwlen (s : State) : (complete s).pwlen = s.pwlen := rfl
@[simp] theorem complete_pw (s : State) : (complete s).pw = s.pw := rfl
@[simp] theorem complete_msg (s : State) : (complete s).msg = s.msg := rfl
@[simp] theorem complete_ct (s : State) : (complete s).ct = s.ct := rfl
@[simp] theorem complete_script (s : State) : (complete s).script = s.script := rfl
@[simp] theorem complete_reads (s : State) : (complete s).reads = s.reads := rfl
@[simp] theorem complete_nowDraws (s : State) : (complete s).nowDraws = s.nowDraws := rfl
@[simp] theorem complete_fillerDraws (s : State) : (complete s).fillerDraws = s.fillerDraws := rfl

/-! `raise` -/

@[simp] theorem raise_b (e : ErrCode) (s : State) : (raise e s).b = s.b := rfl
@[simp] theorem raise_k (e : ErrCode) (s : State) : (raise e s).k = s.k := rfl
@[simp] theorem raise_ts (e : ErrCode) (s : State) : (raise e s).ts = s.ts := rfl
@[simp] theorem raise_hx (e : ErrCode) (s : State) : (raise e s).hx = s.hx := rfl
@[simp] theorem raise_cmd (e : ErrCode) (s : State) : (raise e s).cmd = s.cmd := rfl
@[simp] theorem raise_busy (e : ErrCode) (s : State) : (raise e s).busy = false := rfl
@[simp] theorem raise_err (e : ErrCode) (s : State) : (raise e s).err = e := rfl
@[simp] theorem raise_mlen (e : ErrCode) (s : State) : (raise e s).mlen = s.mlen := rfl
@[simp] theorem raise_ctlen (e : ErrCode) (s : State) : (raise e s).ctlen = s.ctlen := rfl
@[simp] theorem raise_pwlen (e : ErrCode) (s : State) : (raise e s).pwlen = s.pwlen := rfl
@[simp] theorem raise_pw (e : ErrCode) (s : State) : (raise e s).pw = s.pw := rfl
@[simp] theorem raise_msg (e : ErrCode) (s : State) : (raise e s).msg = s.msg := rfl
@[simp] theorem raise_ct (e : ErrCode) (s : State) : (raise e s).ct = s.ct := rfl
@[simp] theorem raise_script (e : ErrCode) (s : State) : (raise e s).script = s.script := rfl
@[simp] theorem raise_reads (e : ErrCode) (s : State) : (raise e s).reads = s.reads := rfl
@[simp] theorem raise_nowDraws (e : ErrCode) (s : State) : (raise e s).nowDraws = s.nowDraws := rfl
@[simp] theorem raise_fillerDraws (e : ErrCode) (s : State) : (raise e s).fillerDraws = s.fillerDraws := rfl

/-! `transformB` -/

@[simp] theorem transformB_b (f : Block → Block) (s : State) : (transformB f s).b = f s.b := rfl
@[simp] theorem transformB_k (f : Block → Block) (s : State) : (transformB f s).k = s.k := rfl
@[simp] theorem transformB_ts (f : Block → Block) (s : State) : (transformB f s).ts = s.ts := rfl
@[simp] theorem transformB_hx (f : Block → Block) (s : State) : (transformB f s).hx = s.hx := rfl
@[simp] theorem transformB_cmd (f : Block → Block) (s : State) : (transformB f s).cmd = s.cmd := rfl
@[simp] theorem transformB_busy (f : Block → Block) (s : State) : (transformB f s).busy = false := rfl
@[simp] theorem transformB_err (f : Block → Block) (s : State) : (transformB f s).err = .noError := rfl
@[simp] theorem transformB_mlen (f : Block → Block) (s : State) : (transformB f s).mlen = s.mlen := rfl
@[simp] theorem transformB_ctlen (f : Block → Block) (s : State) : (transformB f s).ctlen = s.ctlen := rfl
@[simp] theorem transformB_pwlen (f : Block → Block) (s : State) : (transformB f s).pwlen = s.pwlen := rfl
@[simp] theorem transformB_pw (f : Block → Block) (s : State) : (transformB f s).pw = s.pw := rfl
@[simp] theorem transformB_msg (f : Block → Block) (s : State) : (transformB f s).msg = s.msg := rfl
@[simp] theorem transformB_ct (f : Block → Block) (s : State) : (transformB f s).ct = s.ct := rfl
@[simp] theorem transformB_script (f : Block → Block) (s : State) : (transformB f s).script = s.script := rfl
@[simp] theorem transformB_reads (f : Block → Block) (s : State) : (transformB f s).reads = s.reads := rfl
@[simp] theorem transformB_nowDraws (f : Block → Block) (s : State) : (transformB f s).nowDraws = s.nowDraws := rfl
@[simp] theorem transformB_fillerDraws (f : Block → Block) (s : State) : (transformB f s).fillerDraws = s.fillerDraws := rfl

/-! `clearK` -/

@[simp] theorem clearK_b (s : State) : (clearK s).b = s.b := rfl
@[simp] theorem clearK_k (s : State) : (clearK s).k = Vector.replicate 16 0 := rfl
@[simp] theorem clearK_ts (s : State) : (clearK s).ts = s.ts := rfl
@[simp] theorem clearK_hx (s : State) : (clearK s).hx = s.hx := rfl
@[simp] theorem clearK_cmd (s : State) : (clearK s).cmd = s.cmd := rfl
@[simp] theorem clearK_busy (s : State) : (clearK s).busy = s.busy := rfl
@[simp] theorem clearK_err (s : State) : (clearK s).err = s.err := rfl
@[simp] theorem clearK_mlen (s : State) : (clearK s).mlen = s.mlen := rfl
@[simp] theorem clearK_ctlen (s : State) : (clearK s).ctlen = s.ctlen := rfl
@[simp] theorem clearK_pwlen (s : State) : (clearK s).pwlen = s.pwlen := rfl
@[simp] theorem clearK_pw (s : State) : (clearK s).pw = s.pw := rfl
@[simp] theorem clearK_msg (s : State) : (clearK s).msg = s.msg := rfl
@[simp] theorem clearK_ct (s : State) : (clearK s).ct = s.ct := rfl
@[simp] theorem clearK_script (s : State) : (clearK s).script = s.script := rfl
@[simp] theorem clearK_reads (s : State) : (clearK s).reads = s.reads := rfl
@[simp] theorem clearK_nowDraws (s : State) : (clearK s).nowDraws = s.nowDraws := rfl
@[simp] theorem clearK_fillerDraws (s : State) : (clearK s).fillerDraws = s.fillerDraws := rfl

/-! `captureNow` -/

@[simp] theorem captureNow_b (c : Config) (s : State) : (captureNow c s).b = s.b := rfl
@[simp] theorem captureNow_k (c : Config) (s : State) : (captureNow c s).k = s.k := rfl
@[simp] theorem captureNow_ts (c : Config) (s : State) : (captureNow c s).ts = c.now s.nowDraws := rfl
@[simp] theorem captureNow_hx (c : Config) (s : State) : (captureNow c s).hx = s.hx := rfl
@[simp] theorem captureNow_cmd (c : Config) (s : State) : (captureNow c s).cmd = s.cmd := rfl
@[simp] theorem captureNow_busy (c : Config) (s : State) : (captureNow c s).busy = s.busy := rfl
@[simp] theorem captureNow_err (c : Config) (s : State) : (captureNow c s).err = s.err := rfl
@[simp] theorem captureNow_mlen (c : Config) (s : State) : (captureNow c s).mlen = s.mlen := rfl
@[simp] theorem captureNow_ctlen (c : Config) (s : State) : (captureNow c s).ctlen = s.ctlen := rfl
@[simp] theorem captureNow_pwlen (c : Config) (s : State) : (captureNow c s).pwlen = s.pwlen := rfl
@[simp] theorem captureNow_pw (c : Config) (s : State) : (captureNow c s).pw = s.pw := rfl
@[simp] theorem captureNow_msg (c : Config) (s : State) : (captureNow c s).msg = s.msg := rfl
@[simp] theorem captureNow_ct (c : Config) (s : State) : (captureNow c s).ct = s.ct := rfl
@[simp] theorem captureNow_script (c : Config) (s : State) : (captureNow c s).script = s.script := rfl
@[simp] theorem captureNow_reads (c : Config) (s : State) : (captureNow c s).reads = s.reads := rfl
@[simp] theorem captureNow_nowDraws (c : Config) (s : State) : (captureNow c s).nowDraws = s.nowDraws + 1 := rfl
@[simp] theorem captureNow_fillerDraws (c : Config) (s : State) : (captureNow c s).fillerDraws = s.fillerDraws := rfl

/-! `deriveK` -/

@[simp] theorem deriveK_b (c : Config) (s : State) : (deriveK c s).b = s.b := by simp only [deriveK]
@[simp] theorem deriveK_k (c : Config) (s : State) : (deriveK c s).k = derive c (password s) s.ts.toList := by simp only [deriveK]
@[simp] theorem deriveK_ts (c : Config) (s : State) : (deriveK c s).ts = s.ts := by simp only [deriveK]
@[simp] theorem deriveK_hx (c : Config) (s : State) : (deriveK c s).hx = s.hx := by simp only [deriveK]
@[simp] theorem deriveK_cmd (c : Config) (s : State) : (deriveK c s).cmd = s.cmd := by simp only [deriveK]
@[simp] theorem deriveK_busy (c : Config) (s : State) : (deriveK c s).busy = s.busy := by simp only [deriveK]
@[simp] theorem deriveK_err (c : Config) (s : State) : (deriveK c s).err = s.err := by simp only [deriveK]
@[simp] theorem deriveK_mlen (c : Config) (s : State) : (deriveK c s).mlen = s.mlen := by simp only [deriveK]
@[simp] theorem deriveK_ctlen (c : Config) (s : State) : (deriveK c s).ctlen = s.ctlen := by simp only [deriveK]
@[simp] theorem deriveK_pwlen (c : Config) (s : State) : (deriveK c s).pwlen = s.pwlen := by simp only [deriveK]
@[simp] theorem deriveK_pw (c : Config) (s : State) : (deriveK c s).pw = s.pw := by simp only [deriveK]
@[simp] theorem deriveK_msg (c : Config) (s : State) : (deriveK c s).msg = s.msg := by simp only [deriveK]
@[simp] theorem deriveK_ct (c : Config) (s : State) : (deriveK c s).ct = s.ct := by simp only [deriveK]
@[simp] theorem deriveK_script (c : Config) (s : State) : (deriveK c s).script = s.script := by simp only [deriveK]
@[simp] theorem deriveK_reads (c : Config) (s : State) : (deriveK c s).reads = s.reads := by simp only [deriveK]
@[simp] theorem deriveK_nowDraws (c : Config) (s : State) : (deriveK c s).nowDraws = s.nowDraws := by simp only [deriveK]
@[simp] theorem deriveK_fillerDraws (c : Config) (s : State) : (deriveK c s).fillerDraws = s.fillerDraws := by simp only [deriveK]

/-! `resetEngine` -/

@[simp] theorem resetEngine_b (s : State) : (resetEngine s).b = State.reset.b := rfl
@[simp] theorem resetEngine_k (s : State) : (resetEngine s).k = State.reset.k := rfl
@[simp] theorem resetEngine_ts (s : State) : (resetEngine s).ts = State.reset.ts := rfl
@[simp] theorem resetEngine_hx (s : State) : (resetEngine s).hx = State.reset.hx := rfl
@[simp] theorem resetEngine_cmd (s : State) : (resetEngine s).cmd = State.reset.cmd := rfl
@[simp] theorem resetEngine_busy (s : State) : (resetEngine s).busy = State.reset.busy := rfl
@[simp] theorem resetEngine_err (s : State) : (resetEngine s).err = State.reset.err := rfl
@[simp] theorem resetEngine_mlen (s : State) : (resetEngine s).mlen = State.reset.mlen := rfl
@[simp] theorem resetEngine_ctlen (s : State) : (resetEngine s).ctlen = State.reset.ctlen := rfl
@[simp] theorem resetEngine_pwlen (s : State) : (resetEngine s).pwlen = State.reset.pwlen := rfl
@[simp] theorem resetEngine_pw (s : State) : (resetEngine s).pw = State.reset.pw := rfl
@[simp] theorem resetEngine_msg (s : State) : (resetEngine s).msg = State.reset.msg := rfl
@[simp] theorem resetEngine_ct (s : State) : (resetEngine s).ct = State.reset.ct := rfl
@[simp] theorem resetEngine_script (s : State) : (resetEngine s).script = s.script := rfl
@[simp] theorem resetEngine_reads (s : State) : (resetEngine s).reads = s.reads := rfl
@[simp] theorem resetEngine_nowDraws (s : State) : (resetEngine s).nowDraws = s.nowDraws := rfl
@[simp] theorem resetEngine_fillerDraws (s : State) : (resetEngine s).fillerDraws = s.fillerDraws := rfl

end Sys2Proof.Machine
end

