-- ==== Sys2Proof/Laws/Message.lean ====
section
/-! SUPPORT. What the loops of ENC and DEC do: each says once which fields change, and what they then hold (45_message_codec.md R169, R173). -/

namespace Sys2Proof.Machine

/-! Chunk counts (45_message_codec.md R162, R163) -/

theorem blockCount_pos (len : Nat) : 0 < blockCount len := by
  unfold blockCount; omega

/-- The chunks cover the message: all but the last have 16 bytes and the last has `finalLen`. -/
theorem blockCount_cover (len : Nat) : 16 * (blockCount len - 1) + finalLen len = len := by
  unfold finalLen blockCount; omega

theorem finalLen_le (len : Nat) : finalLen len ≤ 16 := by
  unfold finalLen blockCount; omega

theorem finalLen_eq_zero (len : Nat) : finalLen len = 0 ↔ len = 0 := by
  unfold finalLen blockCount; omega

/-- A message that fits its buffer has at most MAX_BLOCKS chunks. -/
theorem blockCount_le {c : Config} {len : Nat} (h : len ≤ c.msgSize) : blockCount len ≤ c.maxBlocks := by
  unfold Config.msgSize at h
  have : 1 ≤ c.maxBlocks := by unfold Config.maxBlocks; omega
  unfold blockCount; omega

theorem maxBlocks_le (c : Config) : c.maxBlocks ≤ 1024 := by
  unfold Config.maxBlocks; omega

/-! ENC's loop -/

/-- One turn of ENC's loop changes `B`, `HX`, `CT` and the count of filler draws, and nothing else. -/
theorem encBlock_eq (c : Config) (nblk n : Nat) (s : State) (j : Nat) :
    encBlock c nblk n s j = { s with
      b := forward c (chunkBlock c nblk n s j) s.k
      hx := hexEnc (forward c (chunkBlock c nblk n s j) s.k)
      ct := s.ct.storeAll (32 * j) (hexEnc (forward c (chunkBlock c nblk n s j) s.k)).toList
      fillerDraws := s.fillerDraws + chunkDraws nblk n j } := by
  simp only [encBlock, loadChunk, emitBlock]

/-- The loop's first m turns. -/
def encPrefix (c : Config) (nblk n m : Nat) (s : State) : State := (List.range m).foldl (encBlock c nblk n) s

theorem encPrefix_zero (c : Config) (nblk n : Nat) (s : State) : encPrefix c nblk n 0 s = s := by
  simp only [encPrefix, List.range_zero, List.foldl_nil]

theorem encPrefix_succ (c : Config) (nblk n m : Nat) (s : State) :
    encPrefix c nblk n (m + 1) s = encBlock c nblk n (encPrefix c nblk n m s) m := by
  simp only [encPrefix, List.range_succ, List.foldl_append, List.foldl_cons, List.foldl_nil]

/-- A chunk is computed from the message and the filler count alone. -/
theorem chunkBlock_congr {c : Config} {nblk n j : Nat} {s t : State} (hm : s.msg = t.msg)
    (hf : s.fillerDraws = t.fillerDraws) : chunkBlock c nblk n s j = chunkBlock c nblk n t j := by
  simp only [chunkBlock, fullChunk, padChunk, hm, hf]

/-- What the first m turns of ENC's loop do: the frame, the blocks written, and the last one left in `B` and `HX`. -/
structure EncPrefixSpec (c : Config) (nblk n m : Nat) (s t : State) : Prop where
  frame : t = { s with b := t.b, hx := t.hx, ct := t.ct, fillerDraws := t.fillerDraws }
  ctWf : t.ct.wf
  ctBlock : ∀ j < m, ∀ (i : Nat) (h : i < 32),
    t.ct.load (32 * j + i) = (hexEnc (forward c (chunkBlock c nblk n s j) s.k))[i]
  ctOutside : ∀ a, 32 * m ≤ a → t.ct.load a = s.ct.load a
  last : ∀ j, m = j + 1 → t.b = forward c (chunkBlock c nblk n s j) s.k ∧ t.hx = hexEnc t.b
  first : m = 0 → t = s
  draws : t.fillerDraws = s.fillerDraws + if m = nblk ∧ n ≠ 16 ∧ 0 < m then 13 - n else 0

theorem encPrefix_spec (c : Config) (nblk n m : Nat) (s : State) (hw : s.ct.wf) (hm : m ≤ nblk) :
    EncPrefixSpec c nblk n m s (encPrefix c nblk n m s) := by
  induction m with
  | zero =>
    rw [encPrefix_zero]
    exact ⟨rfl, hw, by simp, fun _ _ => rfl, by simp, fun _ => rfl, by simp⟩
  | succ m ih =>
    have ih := ih (by omega)
    rw [encPrefix_succ, encBlock_eq]
    generalize encPrefix c nblk n m s = t at ih ⊢
    have hmsg : t.msg = s.msg := by rw [ih.frame]
    have hk : t.k = s.k := by rw [ih.frame]
    have hd : t.fillerDraws = s.fillerDraws := by
      rw [ih.draws, if_neg (by omega)]; rfl
    have hc : chunkBlock c nblk n t m = chunkBlock c nblk n s m := chunkBlock_congr hmsg hd
    have hlen : (hexEnc (forward c (chunkBlock c nblk n s m) s.k)).toList.length = 32 := by simp
    rw [hc, hk]
    refine ⟨?_, ?_, ?_, ?_, ?_, by simp, ?_⟩
    · simp only [State.mk.injEq, hmsg, and_true, true_and]
      rw [ih.frame]
      simp only [and_self]
    · simp only
      exact Memory.wf_storeAll ih.ctWf _ _
    · intro j hj i hi
      simp only
      by_cases h : j = m
      · subst h
        rw [Memory.load_storeAll_inside ih.ctWf _ (by omega)]
        simp
      · rw [Memory.load_storeAll_outside ih.ctWf (by omega)]
        exact ih.ctBlock j (by omega) i hi
    · intro a ha
      simp only
      rw [Memory.load_storeAll_outside ih.ctWf (by omega)]
      exact ih.ctOutside a (by omega)
    · intro j hj
      obtain rfl : m = j := by omega
      exact ⟨rfl, rfl⟩
    · simp only [hd, chunkDraws]
      split <;> split <;> omega

/-! DEC's loop -/

/-- The loop's first m turns. -/
def decPrefix (c : Config) (m : Nat) (s : State) : State := (List.range m).foldl (decBlock c) s

theorem decPrefix_zero (c : Config) (s : State) : decPrefix c 0 s = s := by
  simp only [decPrefix, List.range_zero, List.foldl_nil]

theorem decPrefix_succ (c : Config) (m : Nat) (s : State) :
    decPrefix c (m + 1) s = decBlock c (decPrefix c m s) m := by
  simp only [decPrefix, List.range_succ, List.foldl_append, List.foldl_cons, List.foldl_nil]

/-- One turn of DEC's loop on a block that is all hex digits changes `HX`, `B` and `MSG`, and nothing else. -/
theorem decBlock_eq {c : Config} {s : State} {j : Nat} {y : Block} (h : hexDec (hexChunk s j) = some y) :
    decBlock c s j = { s with
      hx := hexChunk s j, b := inverse c y s.k, msg := s.msg.storeAll (16 * j) (inverse c y s.k).toList } := by
  simp only [decBlock, hexToB, h, Option.getD_some]

/-- What the first m turns of DEC's loop do, y j being the bytes of ciphertext block j. -/
structure DecPrefixSpec (c : Config) (y : Nat → Block) (m : Nat) (s t : State) : Prop where
  frame : t = { s with b := t.b, hx := t.hx, msg := t.msg }
  msgWf : t.msg.wf
  msgBlock : ∀ j < m, ∀ (i : Nat) (h : i < 16), t.msg.load (16 * j + i) = (inverse c (y j) s.k)[i]
  msgOutside : ∀ a, 16 * m ≤ a → t.msg.load a = s.msg.load a
  last : ∀ j, m = j + 1 → t.b = inverse c (y j) s.k ∧ t.hx = hexChunk s j
  first : m = 0 → t = s

theorem decPrefix_spec (c : Config) (y : Nat → Block) (m : Nat) (s : State) (hw : s.msg.wf)
    (hy : ∀ j < m, hexDec (hexChunk s j) = some (y j)) : DecPrefixSpec c y m s (decPrefix c m s) := by
  induction m with
  | zero =>
    rw [decPrefix_zero]
    exact ⟨rfl, hw, by simp, fun _ _ => rfl, by simp, fun _ => rfl⟩
  | succ m ih =>
    have ih := ih fun j hj => hy j (by omega)
    rw [decPrefix_succ]
    generalize decPrefix c m s = t at ih ⊢
    have hk : t.k = s.k := by rw [ih.frame]
    have hx : ∀ j, hexChunk t j = hexChunk s j := fun j => by
      have : t.ct = s.ct := by rw [ih.frame]
      simp only [hexChunk, this]
    rw [decBlock_eq (y := y m) (by rw [hx]; exact hy m (by omega)), hx, hk]
    have hlen : (inverse c (y m) s.k).toList.length = 16 := by simp
    refine ⟨?_, ?_, ?_, ?_, ?_, by simp⟩
    · simp only [State.mk.injEq, true_and]
      rw [ih.frame]
      simp only [and_self]
    · simp only
      exact Memory.wf_storeAll ih.msgWf _ _
    · intro j hj i hi
      simp only
      by_cases h : j = m
      · subst h
        rw [Memory.load_storeAll_inside ih.msgWf _ (by omega)]
        simp
      · rw [Memory.load_storeAll_outside ih.msgWf (by omega)]
        exact ih.msgBlock j (by omega) i hi
    · intro a ha
      simp only
      rw [Memory.load_storeAll_outside ih.msgWf (by omega)]
      exact ih.msgOutside a (by omega)
    · intro j hj
      obtain rfl : m = j := by omega
      exact ⟨rfl, rfl⟩

end Sys2Proof.Machine
end

