-- ==== Sys2Proof/Laws/Exec.lean ====
section
/-! SUPPORT. What each command's meaning is, case by case, so that no later proof unfolds it: `complete` and `raise` as updates (60_exceptions.md R191), and the commands with an error (42_key_derivation.md R119, 44_hex_codec.md R153, 45_message_codec.md R170, R177). -/

namespace Sys2Proof.Machine

/-! The ends of a command -/

theorem complete_eq (s : State) : complete s = { s with err := .noError, busy := false } := by
  simp only [complete, endCommand]

theorem raise_eq (e : ErrCode) (s : State) : raise e s = { s with err := e, busy := false } := by
  simp only [raise, endCommand]

theorem transformB_eq (f : Block → Block) (s : State) :
    transformB f s = { s with b := f s.b, err := .noError, busy := false } := by
  simp only [transformB, complete, endCommand]

/-! KDF -/

theorem cmdKdf_long {c : Config} {s : State} (h : c.pwMax < s.pwlen.toNat) : cmdKdf c s = raise .lengthError s := by
  rw [cmdKdf, if_pos h]

theorem cmdKdf_ok {c : Config} {s : State} (h : s.pwlen.toNat ≤ c.pwMax) : cmdKdf c s = complete (deriveK c s) := by
  rw [cmdKdf, if_neg (Nat.not_lt.2 h)]

/-! HXD -/

theorem cmdHxd_some {s : State} {b : Block} (h : hexDec s.hx = some b) : cmdHxd s = complete { s with b := b } := by
  simp only [cmdHxd, h]

theorem cmdHxd_none {s : State} (h : hexDec s.hx = none) : cmdHxd s = raise .decodingError s := by
  simp only [cmdHxd, h]

/-! ENC -/

theorem cmdEnc_long {c : Config} {s : State} (h : c.msgSize < s.mlen.toNat ∨ c.pwMax < s.pwlen.toNat) :
    cmdEnc c s = raise .lengthError s := by
  rw [cmdEnc]; rw [if_pos h]

theorem cmdEnc_overflow {c : Config} {s : State} (hm : s.mlen.toNat ≤ c.msgSize) (hp : s.pwlen.toNat ≤ c.pwMax)
    (h : finalLen s.mlen.toNat = 14 ∨ finalLen s.mlen.toNat = 15) : cmdEnc c s = raise .paddingOverflowError s := by
  rw [cmdEnc]
  rw [if_neg (not_or.2 ⟨Nat.not_lt.2 hm, Nat.not_lt.2 hp⟩), if_pos h]

theorem cmdEnc_ok {c : Config} {s : State} (hm : s.mlen.toNat ≤ c.msgSize) (hp : s.pwlen.toNat ≤ c.pwMax)
    (h : ¬ (finalLen s.mlen.toNat = 14 ∨ finalLen s.mlen.toNat = 15)) : cmdEnc c s = encodeMessage c s := by
  rw [cmdEnc]
  rw [if_neg (not_or.2 ⟨Nat.not_lt.2 hm, Nat.not_lt.2 hp⟩), if_neg h]

/-- The three ends of ENC. -/
theorem cmdEnc_cases (c : Config) (s : State) :
    cmdEnc c s = raise .lengthError s
    ∨ (cmdEnc c s = raise .paddingOverflowError s)
    ∨ (s.mlen.toNat ≤ c.msgSize ∧ s.pwlen.toNat ≤ c.pwMax
        ∧ ¬ (finalLen s.mlen.toNat = 14 ∨ finalLen s.mlen.toNat = 15) ∧ cmdEnc c s = encodeMessage c s) := by
  by_cases h : c.msgSize < s.mlen.toNat ∨ c.pwMax < s.pwlen.toNat
  · exact .inl (cmdEnc_long h)
  · obtain ⟨hm, hp⟩ := not_or.1 h
    by_cases hn : finalLen s.mlen.toNat = 14 ∨ finalLen s.mlen.toNat = 15
    · exact .inr (.inl (cmdEnc_overflow (Nat.not_lt.1 hm) (Nat.not_lt.1 hp) hn))
    · exact .inr (.inr ⟨Nat.not_lt.1 hm, Nat.not_lt.1 hp, hn, cmdEnc_ok (Nat.not_lt.1 hm) (Nat.not_lt.1 hp) hn⟩)

/-! DEC -/

theorem cmdDec_long {c : Config} {s : State} (h : c.ctSize < s.ctlen.toNat ∨ c.pwMax < s.pwlen.toNat) :
    cmdDec c s = raise .lengthError s := by
  rw [cmdDec, if_pos h]

theorem cmdDec_malformed {c : Config} {s : State} (hm : s.ctlen.toNat ≤ c.ctSize) (hp : s.pwlen.toNat ≤ c.pwMax)
    (h : malformedHex s = true) : cmdDec c s = raise .decodingError s := by
  rw [cmdDec, if_neg (not_or.2 ⟨Nat.not_lt.2 hm, Nat.not_lt.2 hp⟩), if_pos h]

theorem cmdDec_ok {c : Config} {s : State} (hm : s.ctlen.toNat ≤ c.ctSize) (hp : s.pwlen.toNat ≤ c.pwMax)
    (h : malformedHex s = false) : cmdDec c s = decodeMessage c s := by
  rw [cmdDec, if_neg (not_or.2 ⟨Nat.not_lt.2 hm, Nat.not_lt.2 hp⟩), h, if_neg Bool.false_ne_true]

/-- The three ends of DEC. -/
theorem cmdDec_cases (c : Config) (s : State) :
    cmdDec c s = raise .lengthError s
    ∨ (cmdDec c s = raise .decodingError s)
    ∨ (s.ctlen.toNat ≤ c.ctSize ∧ s.pwlen.toNat ≤ c.pwMax ∧ malformedHex s = false ∧ cmdDec c s = decodeMessage c s) := by
  by_cases h : c.ctSize < s.ctlen.toNat ∨ c.pwMax < s.pwlen.toNat
  · exact .inl (cmdDec_long h)
  · obtain ⟨hm, hp⟩ := not_or.1 h
    cases hx : malformedHex s
    · exact .inr (.inr ⟨Nat.not_lt.1 hm, Nat.not_lt.1 hp, rfl, cmdDec_ok (Nat.not_lt.1 hm) (Nat.not_lt.1 hp) hx⟩)
    · exact .inr (.inl (cmdDec_malformed (Nat.not_lt.1 hm) (Nat.not_lt.1 hp) hx))

/-- When the ciphertext is malformed (45_message_codec.md R172). -/
theorem malformedHex_iff (s : State) : malformedHex s = true ↔
    s.ctlen.toNat % 2 = 1 ∨ (∃ m < s.ctlen.toNat, hexVal (s.ct.load m) = none) ∨ s.ctlen.toNat % 32 ≠ 0 := by
  simp [malformedHex, ciphertext, Memory.loadAll, or_assoc]

/-- The strip as one update (45_message_codec.md R174, R179, R180). -/
theorem strip_eq (len : Nat) (s : State) : strip len s = { s with
    mlen := BitVec.ofNat 16 (((suffixValue s.msg len).map (min · len)).getD len)
    err := if (suffixValue s.msg len).isSome then .noError else .padFormatError
    busy := false } := by
  unfold strip
  split <;> simp_all [raise_eq, complete_eq]

/-- The suffix is read from the string's own bytes. -/
theorem suffixValue_congr {m m' : Memory} {len : Nat} (h : ∀ a < len, m.load a = m'.load a) :
    suffixValue m len = suffixValue m' len := by
  unfold suffixValue
  split
  · rfl
  · rw [h _ (by omega), h _ (by omega), h _ (by omega)]

/-! ENC and DEC in one equation each -/

theorem cmdEnc_eq (c : Config) (s : State) : cmdEnc c s =
    if c.msgSize < s.mlen.toNat ∨ c.pwMax < s.pwlen.toNat then { s with err := .lengthError, busy := false }
    else if finalLen s.mlen.toNat = 14 ∨ finalLen s.mlen.toNat = 15 then
      { s with err := .paddingOverflowError, busy := false }
    else
      { encPrefix c (blockCount s.mlen.toNat) (finalLen s.mlen.toNat) (blockCount s.mlen.toNat)
          (deriveK c (captureNow c s)) with
        ctlen := BitVec.ofNat 16 (32 * blockCount s.mlen.toNat), k := Vector.replicate 16 0
        err := .noError, busy := false } := by
  simp only [cmdEnc, raise_eq, encodeMessage, encBlocks, complete_eq, clearK, encPrefix, passwordTooLong]

theorem cmdDec_eq (c : Config) (s : State) : cmdDec c s =
    if c.ctSize < s.ctlen.toNat ∨ c.pwMax < s.pwlen.toNat then { s with err := .lengthError, busy := false }
    else if malformedHex s then { s with err := .decodingError, busy := false }
    else strip (16 * (s.ctlen.toNat / 32)) (clearK (decPrefix c (s.ctlen.toNat / 32) (deriveK c s))) := by
  simp only [cmdDec, raise_eq, decodeMessage, decBlocks, decPrefix, passwordTooLong]

/-! The loops' frames, on every state -/

theorem decBlock_general (c : Config) (s : State) (j : Nat) : decBlock c s j = { s with
    hx := hexChunk s j
    b := inverse c ((hexDec (hexChunk s j)).getD s.b) s.k
    msg := s.msg.storeAll (16 * j) (inverse c ((hexDec (hexChunk s j)).getD s.b) s.k).toList } := by
  simp only [decBlock, hexToB]

theorem encPrefix_frame (c : Config) (nblk n m : Nat) (s : State) :
    encPrefix c nblk n m s = { s with
      b := (encPrefix c nblk n m s).b, hx := (encPrefix c nblk n m s).hx
      ct := (encPrefix c nblk n m s).ct, fillerDraws := (encPrefix c nblk n m s).fillerDraws } := by
  induction m with
  | zero => simp only [encPrefix_zero]
  | succ m ih => rw [encPrefix_succ, encBlock_eq]; simp only; rw [ih]

theorem decPrefix_frame (c : Config) (m : Nat) (s : State) :
    decPrefix c m s = { s with
      b := (decPrefix c m s).b, hx := (decPrefix c m s).hx, msg := (decPrefix c m s).msg } := by
  induction m with
  | zero => simp only [decPrefix_zero]
  | succ m ih => rw [decPrefix_succ, decBlock_general]; simp only; rw [ih]

/-- ENC's loop keeps `CT` canonical and inside its size. -/
theorem encPrefix_ct {c : Config} {s : State} (nblk n : Nat) {m size : Nat} (h : s.ct.wf) (hs : s.ct.within size)
    (hm : 32 * m ≤ size) : (encPrefix c nblk n m s).ct.wf ∧ (encPrefix c nblk n m s).ct.within size := by
  induction m with
  | zero => simp only [encPrefix_zero]; exact ⟨h, hs⟩
  | succ m ih =>
    have ih := ih (by omega)
    simp only [encPrefix_succ, encBlock_eq]
    exact ⟨Memory.wf_storeAll ih.1 _ _, Memory.within_storeAll ih.2 (by simp; omega)⟩

/-- DEC's loop keeps `MSG` canonical and inside its size. -/
theorem decPrefix_msg {c : Config} {s : State} {m size : Nat} (h : s.msg.wf) (hs : s.msg.within size)
    (hm : 16 * m ≤ size) : (decPrefix c m s).msg.wf ∧ (decPrefix c m s).msg.within size := by
  induction m with
  | zero => simp only [decPrefix_zero]; exact ⟨h, hs⟩
  | succ m ih =>
    have ih := ih (by omega)
    simp only [decPrefix_succ, decBlock_general]
    exact ⟨Memory.wf_storeAll ih.1 _ _, Memory.within_storeAll ih.2 (by simp; omega)⟩

/-! Every command completes -/

/-- What a command does to the state, as a function. -/
def effect : Instr → State → State
  | .sbf => cmdSbf Config.engine
  | .sbi => cmdSbi Config.engine
  | .prm => cmdPrm Config.engine
  | .upr => cmdUpr Config.engine
  | .rot => cmdRot
  | .xky => cmdXky
  | .kdf => cmdKdf Config.engine
  | .bfw => cmdBfw Config.engine
  | .bin => cmdBin Config.engine
  | .hxe => cmdHxe
  | .hxd => cmdHxd
  | .enc => cmdEnc Config.engine
  | .dec => cmdDec Config.engine

theorem exec_eq_effect (i : Instr) (s : State) : exec i s = .next (effect i s) := by
  cases i <;> rfl

/-! Runs -/

theorem run_zero (s : State) : Sys2Proof.core.run 0 s = .next s := rfl

theorem run_succ {n : Nat} {s t : State} (h : step s = .next t) :
    Sys2Proof.core.run (n + 1) s = Sys2Proof.core.run n t := by
  have general : ∀ (m : Host.Core) (s t : m.State), m.step s = .next t → m.run (n + 1) s = m.run n t := by
    intro m s t h
    simp only [Host.Core.run, h]
  exact general Sys2Proof.core s t h

end Sys2Proof.Machine
end

