-- ==== Sys2Proof/Laws/Independence.lean ====
section
/-! SUPPORT. What the loops of ENC and DEC do not read: the host's script, the password buffer, the last outcome, and buffer bytes at or beyond a length (60_exceptions.md R203, 20_memory.md R63). -/

namespace Sys2Proof.Machine

/-! Fields that a loop carries along -/

theorem encPrefix_withScript (c : Config) (nblk n m : Nat) (s : State) (l : List HostOp) :
    encPrefix c nblk n m { s with script := l } = { encPrefix c nblk n m s with script := l } := by
  induction m with
  | zero => simp only [encPrefix_zero]
  | succ m ih =>
    simp only [encPrefix_succ, ih, encBlock_eq]
    simp only [chunkBlock, fullChunk, padChunk]

theorem decPrefix_withScript (c : Config) (m : Nat) (s : State) (l : List HostOp) :
    decPrefix c m { s with script := l } = { decPrefix c m s with script := l } := by
  induction m with
  | zero => simp only [decPrefix_zero]
  | succ m ih =>
    simp only [decPrefix_succ, ih, decBlock_general]
    simp only [hexChunk]

theorem encPrefix_withPw (c : Config) (nblk n m : Nat) (s : State) (p : Memory) :
    encPrefix c nblk n m { s with pw := p } = { encPrefix c nblk n m s with pw := p } := by
  induction m with
  | zero => simp only [encPrefix_zero]
  | succ m ih =>
    simp only [encPrefix_succ, ih, encBlock_eq]
    simp only [chunkBlock, fullChunk, padChunk]

theorem decPrefix_withPw (c : Config) (m : Nat) (s : State) (p : Memory) :
    decPrefix c m { s with pw := p } = { decPrefix c m s with pw := p } := by
  induction m with
  | zero => simp only [decPrefix_zero]
  | succ m ih =>
    simp only [decPrefix_succ, ih, decBlock_general]
    simp only [hexChunk]

theorem encPrefix_withOutcome (c : Config) (nblk n m : Nat) (s : State) (e : ErrCode) (x : Bool) :
    encPrefix c nblk n m { s with err := e, busy := x } = { encPrefix c nblk n m s with err := e, busy := x } := by
  induction m with
  | zero => simp only [encPrefix_zero]
  | succ m ih =>
    simp only [encPrefix_succ, ih, encBlock_eq]
    simp only [chunkBlock, fullChunk, padChunk]

theorem decPrefix_withOutcome (c : Config) (m : Nat) (s : State) (e : ErrCode) (x : Bool) :
    decPrefix c m { s with err := e, busy := x } = { decPrefix c m s with err := e, busy := x } := by
  induction m with
  | zero => simp only [decPrefix_zero]
  | succ m ih =>
    simp only [decPrefix_succ, ih, decBlock_general]
    simp only [hexChunk]

/-! Bytes beyond a length -/

theorem encPrefix_msg_eq (c : Config) (nblk n m : Nat) (s : State) : (encPrefix c nblk n m s).msg = s.msg := by
  rw [encPrefix_frame]

theorem decPrefix_ct_eq (c : Config) (m : Nat) (s : State) : (decPrefix c m s).ct = s.ct := by
  rw [decPrefix_frame]

/-- A chunk is made of message bytes below the length (45_message_codec.md R162 to R164). -/
theorem chunkBlock_withMsg {c : Config} {len j : Nat} {s : State} {p : Memory}
    (h : ∀ a < len, p.load a = s.msg.load a) (hj : j < blockCount len) :
    chunkBlock c (blockCount len) (finalLen len) { s with msg := p } j
      = chunkBlock c (blockCount len) (finalLen len) s j := by
  have hcov := blockCount_cover len
  have hfl := finalLen_le len
  simp only [chunkBlock]
  split
  next hh =>
    have : 16 * j + 16 ≤ len := by
      rcases hh with hh | hh
      · have : 16 * j + 16 ≤ 16 * (blockCount len - 1) := by omega
        omega
      · have : 16 * j ≤ 16 * (blockCount len - 1) := by omega
        omega
    ext i hi : 1
    simp only [fullChunk, Vector.getElem_ofFn]
    rw [h _ (by omega)]
  next hh =>
    ext i hi : 1
    simp only [padChunk, Vector.getElem_ofFn]
    have : j = blockCount len - 1 := by omega
    by_cases h1 : i < finalLen len
    · rw [if_pos h1, if_pos h1, h _ (by subst this; omega)]
    · rw [if_neg h1, if_neg h1]

theorem encPrefix_withMsg {c : Config} {len m : Nat} {s : State} {p : Memory} (h : ∀ a < len, p.load a = s.msg.load a)
    (hm : m ≤ blockCount len) :
    encPrefix c (blockCount len) (finalLen len) m { s with msg := p }
      = { encPrefix c (blockCount len) (finalLen len) m s with msg := p } := by
  induction m with
  | zero => simp only [encPrefix_zero]
  | succ m ih =>
    simp only [encPrefix_succ, ih (by omega), encBlock_eq]
    rw [chunkBlock_withMsg (s := encPrefix c (blockCount len) (finalLen len) m s)
      (by rw [encPrefix_msg_eq]; exact h) (by omega)]

/-- ENC's loop writes `CT` and reads none of it. -/
theorem encPrefix_withCt (c : Config) (nblk n m : Nat) (s : State) (p : Memory) :
    ∃ p', encPrefix c nblk n m { s with ct := p } = { encPrefix c nblk n m s with ct := p' } := by
  induction m with
  | zero => exact ⟨p, by simp only [encPrefix_zero]⟩
  | succ m ih =>
    obtain ⟨p', ih⟩ := ih
    simp only [encPrefix_succ, ih, encBlock_eq]
    simp only [chunkBlock, fullChunk, padChunk]
    exact ⟨_, rfl⟩

theorem decPrefix_withCt {c : Config} {m len : Nat} {s : State} {p : Memory} (h : ∀ a < len, p.load a = s.ct.load a)
    (hm : 32 * m ≤ len) : decPrefix c m { s with ct := p } = { decPrefix c m s with ct := p } := by
  induction m with
  | zero => simp only [decPrefix_zero]
  | succ m ih =>
    simp only [decPrefix_succ, ih (by omega), decBlock_general]
    have : hexChunk { decPrefix c m s with ct := p } m = hexChunk (decPrefix c m s) m := by
      ext i hi : 1
      simp only [hexChunk, Vector.getElem_ofFn, decPrefix_ct_eq]
      exact h _ (by omega)
    rw [this]

/-- DEC's loop writes `MSG` below 16 times its turns and reads none of it. -/
theorem decPrefix_withMsg {c : Config} {s : State} {p : Memory} (m : Nat) (hp : p.wf) (hs : s.msg.wf) :
    ∃ p', decPrefix c m { s with msg := p } = { decPrefix c m s with msg := p' } ∧ p'.wf
      ∧ (decPrefix c m s).msg.wf ∧ ∀ a < 16 * m, p'.load a = (decPrefix c m s).msg.load a := by
  induction m with
  | zero => exact ⟨p, by simp only [decPrefix_zero], hp, by simpa only [decPrefix_zero], by simp⟩
  | succ m ih =>
    obtain ⟨p', ih, hp', hs', hl⟩ := ih
    simp only [decPrefix_succ, ih, decBlock_general]
    simp only [hexChunk]
    refine ⟨_, rfl, Memory.wf_storeAll hp' _ _, Memory.wf_storeAll hs' _ _, fun a ha => ?_⟩
    rw [Memory.load_storeAll hp', Memory.load_storeAll hs']
    split
    · rfl
    next h => exact hl a (by simp only [Vector.length_toList] at h; omega)

end Sys2Proof.Machine
end

