-- ==== Sys2Proof/Laws/PerInstr.lean ====
section
/-! SUPPORT. Statements made per command: the family FieldsRoundTrip, the fields of a command's byte (30_encoding.md R71, R72). -/

namespace Sys2Proof.Laws.FieldsRoundTrip

/-- The byte of a command splits into the command's fields, and these decode to the command. -/
def Statement (i : Instr) : Prop :=
  fieldsOf (encode i) = encodeFields i ∧ decodeFields (encodeFields i) = .instr i

theorem sbf : Statement .sbf := by unfold Statement; decide
theorem sbi : Statement .sbi := by unfold Statement; decide
theorem prm : Statement .prm := by unfold Statement; decide
theorem upr : Statement .upr := by unfold Statement; decide
theorem rot : Statement .rot := by unfold Statement; decide
theorem xky : Statement .xky := by unfold Statement; decide
theorem kdf : Statement .kdf := by unfold Statement; decide
theorem bfw : Statement .bfw := by unfold Statement; decide
theorem bin : Statement .bin := by unfold Statement; decide
theorem hxe : Statement .hxe := by unfold Statement; decide
theorem hxd : Statement .hxd := by unfold Statement; decide
theorem enc : Statement .enc := by unfold Statement; decide
theorem dec : Statement .dec := by unfold Statement; decide

end Sys2Proof.Laws.FieldsRoundTrip
end

