-- ==== Sys2Proof/Tests/Slice0.lean ====
section
/-! SUPPORT. The model's own tests: well-formedness and decoding, one or two worked vectors of 95_test_vectors.md for each command, one step, and a witness for every statement that has hypotheses. -/

open Sys2Proof Sys2Proof.Machine Sys2Proof.Claims

namespace Sys2Proof.Tests

/-! Well-formedness: each check refuses an ill-formed term (30_encoding.md R71, R73, R79) -/

theorem test_wf_refuses_z : (CmdFields.wf { unit := 1, z := 1, dir := 0 }) = false := by decide
theorem test_wf_refuses_unit_zero : (CmdFields.wf { unit := 0, z := 0, dir := 0 }) = false := by decide
theorem test_wf_refuses_unit_nine : (CmdFields.wf { unit := 9, z := 0, dir := 0 }) = false := by decide
theorem test_wf_refuses_inverse_rot : (CmdFields.wf { unit := 3, z := 0, dir := 1 }) = false := by decide
theorem test_wf_refuses_inverse_xky : (CmdFields.wf { unit := 4, z := 0, dir := 1 }) = false := by decide
theorem test_wf_refuses_inverse_kdf : (CmdFields.wf { unit := 5, z := 0, dir := 1 }) = false := by decide
theorem test_wf_accepts_dec : (CmdFields.wf { unit := 8, z := 0, dir := 1 }) = true := by decide

theorem test_wf_refuses_short_ldb : (HostStep.ldb (List.replicate 15 0)).wf vectors = false := by decide
theorem test_wf_refuses_long_ldk : (HostStep.ldk (List.replicate 17 0)).wf vectors = false := by decide
theorem test_wf_refuses_empty_ldts : (HostStep.ldts []).wf vectors = false := by decide
theorem test_wf_refuses_short_ldhx : (HostStep.ldhx (List.replicate 31 0x30)).wf vectors = false := by decide
theorem test_wf_refuses_long_ldpw : (HostStep.ldpw (List.replicate 257 0)).wf vectors = false := by decide +kernel
theorem test_wf_refuses_long_ldmsg : (HostStep.ldmsg (List.replicate 1025 0)).wf vectors = false := by decide +kernel
theorem test_wf_refuses_long_ldct : (HostStep.ldct (List.replicate 2049 0)).wf vectors = false := by decide +kernel

/-! Decoding: the byte of each command, field by field (30_encoding.md R71, R72), and bytes that are none (V3) -/

theorem test_decode_sbf : decode (0b0001#4 ++ 0b000#3 ++ 0b0#1) = .instr .sbf := by decide
theorem test_decode_sbi : decode (0b0001#4 ++ 0b000#3 ++ 0b1#1) = .instr .sbi := by decide
theorem test_decode_prm : decode (0b0010#4 ++ 0b000#3 ++ 0b0#1) = .instr .prm := by decide
theorem test_decode_upr : decode (0b0010#4 ++ 0b000#3 ++ 0b1#1) = .instr .upr := by decide
theorem test_decode_rot : decode (0b0011#4 ++ 0b000#3 ++ 0b0#1) = .instr .rot := by decide
theorem test_decode_xky : decode (0b0100#4 ++ 0b000#3 ++ 0b0#1) = .instr .xky := by decide
theorem test_decode_kdf : decode (0b0101#4 ++ 0b000#3 ++ 0b0#1) = .instr .kdf := by decide
theorem test_decode_bfw : decode (0b0110#4 ++ 0b000#3 ++ 0b0#1) = .instr .bfw := by decide
theorem test_decode_bin : decode (0b0110#4 ++ 0b000#3 ++ 0b1#1) = .instr .bin := by decide
theorem test_decode_hxe : decode (0b0111#4 ++ 0b000#3 ++ 0b0#1) = .instr .hxe := by decide
theorem test_decode_hxd : decode (0b0111#4 ++ 0b000#3 ++ 0b1#1) = .instr .hxd := by decide
theorem test_decode_enc : decode (0b1000#4 ++ 0b000#3 ++ 0b0#1) = .instr .enc := by decide
theorem test_decode_dec : decode (0b1000#4 ++ 0b000#3 ++ 0b1#1) = .instr .dec := by decide

theorem test_decode_rejects_z : decode 0x12 = .rejected .zNotZero := by decide
theorem test_decode_rejects_unit : decode 0x90 = .rejected .noUnit := by decide
theorem test_decode_rejects_zero : decode 0x00 = .rejected .noUnit := by decide
theorem test_decode_rejects_inverse_rot : decode 0x31 = .rejected .noInverse := by decide
theorem test_decode_rejects_no_byte : decodeBytes [] = .rejected .noByte := by decide
theorem test_decode_table_word : decodeTableWord 8 0x81 = some .dec := by decide

/-! Small states for the vectors -/

/-- A buffer that holds a byte string from index 0 on. -/
def buf (l : List Byte) : Memory := Memory.storeAll [] 0 l

/-- "test". -/
def testPw : List Byte := [0x74, 0x65, 0x73, 0x74]

/-- "2024-01-01 00:00". -/
def testTs : Block :=
  #v[0x32, 0x30, 0x32, 0x34, 0x2d, 0x30, 0x31, 0x2d, 0x30, 0x31, 0x20, 0x30, 0x30, 0x3a, 0x30, 0x30]

/-- The vectors' parameters with `NOW` = "2024-01-01 00:00" and the filler "abcdefgh" for the first eight draws. -/
def testConfig : Config := vectorConfig 2 testTs fun n => 26 + n

/-- The password "test" and a message. -/
def encState (msg : List Byte) : State :=
  { State.reset with
    msg := buf msg, mlen := BitVec.ofNat 16 msg.length, pw := buf testPw, pwlen := 4 }

/-- The password "test", the timestamp and a ciphertext. -/
def decState (ct : List Byte) : State :=
  { State.reset with
    ct := buf ct, ctlen := BitVec.ofNat 16 ct.length, pw := buf testPw, pwlen := 4, ts := testTs }

/-- "490f2b8449586ac4eeb0187968da66e6", the ciphertext of V52. -/
def fullCipher : List Byte :=
  [0x34, 0x39, 0x30, 0x66, 0x32, 0x62, 0x38, 0x34, 0x34, 0x39, 0x35, 0x38, 0x36, 0x61, 0x63, 0x34,
    0x65, 0x65, 0x62, 0x30, 0x31, 0x38, 0x37, 0x39, 0x36, 0x38, 0x64, 0x61, 0x36, 0x36, 0x65, 0x36]

/-! One step of each unit, against 95_test_vectors.md -/

/-- V15. -/
theorem test_sbf_column : (cmdSbf vectors (withBK
    #v[0x00, 0x10, 0x20, 0x30, 0x40, 0x50, 0x60, 0x70, 0x80, 0x90, 0xa0, 0xb0, 0xc0, 0xd0, 0xe0, 0xf0] counting)).b =
    #v[0x63, 0xca, 0xb7, 0x04, 0x09, 0x53, 0xd0, 0x51, 0xcd, 0x60, 0xe0, 0xe7, 0xba, 0x70, 0xe1, 0x8c] := by
  decide +kernel

/-- V16. -/
theorem test_sbi_row : (cmdSbi vectors (withBK counting counting)).b =
    #v[0x52, 0x09, 0x6a, 0xd5, 0x30, 0x36, 0xa5, 0x38, 0xbf, 0x40, 0xa3, 0x9e, 0x81, 0xf3, 0xd7, 0xfb] := by
  decide +kernel

/-- V21a. -/
theorem test_prm_hello : (cmdPrm vectors (withBK helloBlock counting)).b =
    #v[0x4c, 0x66, 0x45, 0x64, 0x35, 0x62, 0x30, 0x4f, 0x67, 0x4c, 0x65, 0x48, 0x63, 0x30, 0x61, 0x68] := by
  decide +kernel

/-- V31, the last stage of BIN. -/
theorem test_upr_hello : (cmdUpr vectors (withBK
    #v[0x4c, 0x66, 0x45, 0x64, 0x35, 0x62, 0x30, 0x4f, 0x67, 0x4c, 0x65, 0x48, 0x63, 0x30, 0x61, 0x68] counting)).b =
    helloBlock := by
  decide +kernel

/-- V31, the third stage of BFW. -/
theorem test_rot_hello : (cmdRot (withBK
    #v[0x29, 0x33, 0x6e, 0x43, 0x96, 0xaa, 0x04, 0x84, 0x85, 0x29, 0x4d, 0x52, 0xfb, 0x04, 0xef, 0x45] counting)).b =
    #v[0x6e, 0x43, 0x29, 0x33, 0x04, 0x84, 0x96, 0xaa, 0x4d, 0x52, 0x85, 0x29, 0xef, 0x45, 0xfb, 0x04] := by
  decide

/-- V31, the last stage of BFW. -/
theorem test_xky_hello : (cmdXky (withBK
    #v[0x6e, 0x43, 0x29, 0x33, 0x04, 0x84, 0x96, 0xaa, 0x4d, 0x52, 0x85, 0x29, 0xef, 0x45, 0xfb, 0x04] keyTest)).b =
    helloCipher := by
  decide +kernel

/-- V26a: the empty password and a zero timestamp. -/
theorem test_kdf_after_reset : (cmdKdf vectors State.reset).k =
    #v[0x64, 0x34, 0x66, 0x37, 0x63, 0x63, 0x62, 0x64, 0x36, 0x66, 0x38, 0x64, 0x38, 0x31, 0x63, 0x31] := by
  decide +kernel

/-- V26c: PWLEN = 257. -/
theorem test_kdf_too_long : cmdKdf vectors { State.reset with pwlen := 257 } =
    { State.reset with pwlen := 257, err := .lengthError } := by
  decide

/-- V34. -/
theorem test_bfw_zero_key : (cmdBfw vectors (withBK counting (Vector.replicate 16 0))).b =
    #v[0x7c, 0x30, 0x7b, 0x67, 0xd7, 0xf2, 0x76, 0x6f, 0x01, 0x63, 0x2b, 0x77, 0x6b, 0xfe, 0xc5, 0xab] := by
  decide +kernel

/-- V34a: BIN is not BFW. -/
theorem test_bin_zero_key : (cmdBin vectors (withBK counting (Vector.replicate 16 0))).b =
    #v[0x40, 0x52, 0x9e, 0x6a, 0x36, 0x81, 0x38, 0xd7, 0x09, 0xbf, 0xd5, 0xa3, 0xf3, 0x30, 0xfb, 0xa5] := by
  decide +kernel

/-- V39, its first three bytes: the high nibble first, leading zeros kept, small letters. -/
theorem test_hxe_order : ((cmdHxe (withBK
    #v[0x00, 0xff, 0x0a, 0, 0, 0, 0, 0, 0, 0, 0, 0, 0, 0, 0, 0] counting)).hx.toList.take 6) =
    [0x30, 0x30, 0x66, 0x66, 0x30, 0x61] := by
  decide +kernel

/-- V43a: after reset the hex register holds no digits. -/
theorem test_hxd_after_reset : cmdHxd State.reset = { State.reset with err := .decodingError } := by
  decide +kernel

/-- V44. -/
theorem test_enc_hello : (cmdEnc testConfig (encState [0x48, 0x45, 0x4c, 0x4c, 0x4f])).ct = buf helloHex.toList := by
  decide +kernel

/-- V52: a full final chunk has no padding and no suffix. -/
theorem test_enc_full_chunk : (cmdEnc testConfig (encState
    [0x41, 0x42, 0x43, 0x44, 0x45, 0x46, 0x47, 0x48, 0x49, 0x4a, 0x4b, 0x4c, 0x4d, 0x4e, 0x4f, 0x50])).ct =
    buf fullCipher := by
  decide +kernel

/-- V56. -/
theorem test_dec_hello : message (cmdDec testConfig (decState helloHex.toList)) = [0x48, 0x45, 0x4c, 0x4c, 0x4f] := by
  decide +kernel

/-- V62: the string's own tail is no number. -/
theorem test_dec_no_suffix : (cmdDec testConfig (decState fullCipher)).err = .padFormatError ∧
    (cmdDec testConfig (decState fullCipher)).mlen = 16 := by
  decide +kernel

/-! The defaults, against the spec's tables -/

/-- The first and last entries of SBOX_AES and of its inverse (40_sbox.md section 4, V16, V16a). -/
theorem test_default_sbox : sboxAes 0x00 = 0x63 ∧ sboxAes 0xff = 0x16 ∧ sboxAes.symm 0x00 = 0x52 := by decide +kernel

/-- The first four bytes of SHA-256 of the empty string (V23). -/
theorem test_default_hash : ((sha256 []).toList.take 4) = [0xe3, 0xb0, 0xc4, 0x42] := by decide +kernel

/-- The punctuation of the vectors: `#`, `!` and `.` (V44, V45, V53), and the ends of ASCII's four ranges. -/
theorem test_punctuation :
    punctuation 2 = 0x23 ∧ punctuation 0 = 0x21 ∧ punctuation 13 = 0x2e ∧ punctuation 14 = 0x2f ∧ punctuation 15 = 0x3a
      ∧ punctuation 21 = 0x40 ∧ punctuation 22 = 0x5b ∧ punctuation 27 = 0x60 ∧ punctuation 28 = 0x7b
      ∧ punctuation 31 = 0x7e := by decide

/-! The bus and the step, against 95_test_vectors.md section 2.2 -/

/-- V9 and V10: the low byte at the lower address, the halves independent. -/
theorem test_length_halves : setHi (setLo 0 0x34) 0x12 = 0x1234 ∧ setLo 0x1234 0x05 = 0x1205 := by decide

/-- V11: beyond the configured size the address is unmapped, just below it is the last byte. -/
theorem test_window_end : locate vectors 0x4400 = .reserved ∧ locate vectors 0x43ff = .msg 0x3ff := by
  have h : vectors.msgSize = 1024 := rfl
  refine ⟨?_, locate_msg vectors (i := 0x3ff) (by rw [h]; decide)⟩
  rw [locate_high vectors (by decide)]
  simp [windowLoc, bufferLoc, h]

/-- V12: a read of `NOW` is a draw. -/
theorem test_now_read : hostTurn testConfig { State.reset with script := [.read 0x0040] } =
    .settled (.next { State.reset with reads := [⟨0x0040, 0x32⟩], nowDraws := 1 }) := rfl

/-- A host script's traffic: P1's first step (30_encoding.md R79). -/
theorem test_expand_ldpw : expand (.ldpw testPw) =
    [.write 0x0100 0x74, .write 0x0101 0x65, .write 0x0102 0x73, .write 0x0103 0x74, .write 0x0008 0x04,
      .write 0x0009 0x00] := by
  decide

/-- V1: after reset the byte 0x00 is no command. -/
theorem test_step_illegal : step (State.reset.withFetchWord 8 0x00) =
    .next { State.reset with err := .illegalCommand } := rfl

/-- V4's command from reset: step runs ROT as the first command. -/
theorem test_step_rot : step (State.reset.withFetchWord 8 0x30) =
    .next (cmdRot { State.reset with cmd := 0x30, busy := true }) := rfl

/-- V77: step runs DEC as the first command after reset. -/
theorem test_step_dec : step (State.reset.withFetchWord 8 0x81) =
    .next (cmdDec Config.engine { State.reset with cmd := 0x81, busy := true }) := rfl

/-! Witnesses: for each statement with hypotheses, a state and operands that meet them, each clause at a boundary -/

/-- The reset state with a host that still has these operations to issue. -/
def hosted (l : List HostOp) : State := { State.reset with script := l }

theorem hosted_inv (l : List HostOp) : (hosted l).Inv Config.engine := by
  refine ⟨rfl, ?_, ?_, ?_, ?_, ?_, ?_⟩ <;> dsimp only [hosted, State.reset] <;> decide +revert

theorem test_witness_StepRunsTheDecodedCommand :
    (hosted [.write 0x0000 0x10]).idle ∧ (hosted [.write 0x0000 0x10]).script = .write 0x0000 0x10 :: [] ∧
      decode 0x10 = .instr .sbf := ⟨rfl, rfl, by decide⟩

theorem test_witness_IllegalByteRaisesIllegalCommand :
    (hosted [.write 0x0000 0x12]).idle ∧ (hosted [.write 0x0000 0x12]).script = .write 0x0000 0x12 :: [] ∧
      0x12 ∉ commandBytes ∧ 0x00 ∉ commandBytes ∧ 0xff ∉ commandBytes := by decide

theorem test_witness_ResetSetsEveryRegisterToZero :
    ({ withBK counting keyTest with script := [.reset], err := .lengthError } : State).script = .reset :: [] := rfl

theorem test_witness_ResetKeepsTheModelsOwnFields :
    ({ withBK counting keyTest with script := [.reset, .reset], nowDraws := 3 } : State).script = .reset :: [.reset] := rfl

theorem test_witness_EngineWithoutHostOperationStays : (hosted []).script = [] := rfl

theorem test_witness_AccessWhileBusyIsRefused :
    (∃ s : State, s.busy = true ∧ s.script = .write 0x0010 0xff :: [])
      ∧ (∃ s : State, s.busy = true ∧ s.script = .read 0x0000 :: []) ∧ (0x0000 : Addr) ≠ 0x0001
      ∧ (∃ s : State, s.busy = true ∧ s.script = .read 0x0002 :: []) ∧ (0x0002 : Addr) ≠ 0x0001
      ∧ ∃ s : State, s.busy = true ∧ s.script = .read 0x0001 :: [] :=
  ⟨⟨{ hosted [.write 0x0010 0xff] with busy := true }, rfl, rfl⟩,
    ⟨{ hosted [.read 0x0000] with busy := true }, rfl, rfl⟩, by decide,
    ⟨{ hosted [.read 0x0002] with busy := true }, rfl, rfl⟩, by decide,
    ⟨{ hosted [.read 0x0001] with busy := true }, rfl, rfl⟩⟩

/-- For every address there is an idle state whose next operation reads it, and the windows' last indices are in range. -/
theorem test_witness_BusReadReturnsTheMappedLocation (c : Config) :
    (∀ a : Addr, (hosted [.read a]).idle ∧ (hosted [.read a]).script = .read a :: [])
      ∧ at_ 0x0010 15 = 0x001f ∧ at_ 0x0020 15 = 0x002f ∧ at_ 0x0030 15 = 0x003f ∧ at_ 0x0060 31 = 0x007f
      ∧ 0 < c.pwMax ∧ c.pwMax - 1 < c.pwMax ∧ c.msgSize - 1 < c.msgSize ∧ c.ctSize - 1 < c.ctSize := by
  have := pwMax_pos c; have := msgSize_pos c; have := ctSize_pos c
  exact ⟨fun a => ⟨rfl, rfl⟩, by decide, by decide, by decide, by decide, by omega, by omega, by omega, by omega⟩

theorem test_witness_BusWriteChangesTheMappedLocationAlone (c : Config) :
    (∀ (a : Addr) (v : Byte), (hosted [.write a v]).idle ∧ (hosted [.write a v]).script = .write a v :: [])
      ∧ 0 < c.pwMax ∧ c.pwMax - 1 < c.pwMax ∧ c.msgSize - 1 < c.msgSize ∧ c.ctSize - 1 < c.ctSize := by
  have := pwMax_pos c; have := msgSize_pos c; have := ctSize_pos c
  exact ⟨fun a v => ⟨rfl, rfl⟩, by omega, by omega, by omega, by omega⟩

/-- Both ends of each unmapped range, with the vectors' sizes. -/
theorem test_witness_UnmappedAndReadOnlyLocations :
    State.reset.idle
      ∧ (∀ a ∈ ([0x0003, 0x000a, 0x000f, 0x0050, 0x005f, 0x0080, 0x00ff, 0x0200, 0x3fff, 0x4400, 0x7fff, 0x8800, 0xffff]
          : List Addr), Unmapped vectors a)
      ∧ ∀ a ∈ ([0x0001, 0x0002, 0x0040, 0x004f, 0x01ff, 0x43ff, 0x87ff] : List Addr), ¬ Unmapped vectors a := by
  have h1 : vectors.pwMax = 256 := rfl
  have h2 : vectors.msgSize = 1024 := rfl
  have h3 : vectors.ctSize = 2048 := rfl
  simp [Unmapped, h1, h2, h3, State.reset]

theorem test_witness_NowReadIsAFreshDraw :
    (hosted [.read (at_ 0x0040 15)]).idle ∧ (hosted [.read (at_ 0x0040 15)]).script = .read (at_ 0x0040 15) :: []
      ∧ at_ 0x0040 0 = 0x0040 ∧ at_ 0x0040 15 = 0x004f := by decide

theorem test_witness_LengthRegistersReadLittleEndian :
    (hosted [.read 0x0004, .read 0x0005]).script = .read 0x0004 :: .read 0x0005 :: []
      ∧ (hosted [.read 0x0006, .read 0x0007]).script = .read 0x0006 :: .read 0x0007 :: []
      ∧ (hosted [.read 0x0008, .read 0x0009]).script = .read 0x0008 :: .read 0x0009 :: []
      ∧ (hosted [.read 0x0008, .read 0x0009]).idle := ⟨rfl, rfl, rfl, rfl⟩

/-- Both ends of each writable range. -/
theorem test_witness_WrittenByteReadsBack :
    (∀ a v, (hosted [.write a v, .read a]).Inv Config.engine
      ∧ (hosted [.write a v, .read a]).script = .write a v :: .read a :: [])
      ∧ Writable Config.engine 0x0000 ∧ Writable Config.engine 0x0004 ∧ Writable Config.engine 0x0009
      ∧ Writable Config.engine 0x0010 ∧ Writable Config.engine 0x003f ∧ Writable Config.engine 0x0060
      ∧ Writable Config.engine 0x007f ∧ Writable Config.engine 0x0100
      ∧ Writable Config.engine (at_ 0x0100 (Config.engine.pwMax - 1))
      ∧ Writable Config.engine 0x4000 ∧ Writable Config.engine (at_ 0x4000 (Config.engine.msgSize - 1))
      ∧ Writable Config.engine 0x8000 ∧ Writable Config.engine (at_ 0x8000 (Config.engine.ctSize - 1)) := by
  have h1 := pwMax_pos Config.engine; have h2 := pwMax_le Config.engine
  have h3 := msgSize_pos Config.engine; have h4 := msgSize_le Config.engine
  have h5 := ctSize_pos Config.engine; have h6 := ctSize_le Config.engine
  have e1 := toNat_window (base := 0x0100) (i := Config.engine.pwMax - 1) (by omega)
  have e2 := toNat_window (base := 0x4000) (i := Config.engine.msgSize - 1) (by omega)
  have e3 := toNat_window (base := 0x8000) (i := Config.engine.ctSize - 1) (by omega)
  unfold Writable
  rw [e1, e2, e3]
  refine ⟨fun a v => ⟨hosted_inv _, rfl⟩, by decide, by decide, by decide, by decide, by decide, by decide, by decide, ?_, ?_, ?_,
    ?_, ?_, ?_⟩ <;> simp <;> omega

theorem test_witness_PrmGathersTheBytes :
    (withBK (Vector.replicate 16 0x5a) counting).b = Vector.replicate 16 0x5a ∧ (withBK counting counting).b = counting :=
  ⟨rfl, rfl⟩

theorem test_witness_XkyXorsEveryLaneWithTheKey : (withBK counting (Vector.replicate 16 0x00)).k = Vector.replicate 16 0x00 :=
  rfl

theorem test_witness_BfwIsTheForwardTransform :
    (∃ j : Fin 16, j.val = (0 : Fin 16).val ^^^ 2) ∧ (∃ j : Fin 16, j.val = (15 : Fin 16).val ^^^ 2)
      ∧ (withBK counting (Vector.replicate 16 0x00)).k = Vector.replicate 16 0x00
      ∧ (withBK (Vector.replicate 16 0x00) counting).b = Vector.replicate 16 0x00 :=
  ⟨⟨2, rfl⟩, ⟨13, rfl⟩, rfl, rfl⟩

theorem test_witness_BinIsTheInverseTransform :
    (∃ j : Fin 16, j.val = (0 : Fin 16).val ^^^ 2) ∧ ∃ j : Fin 16, j.val = (15 : Fin 16).val ^^^ 2 :=
  ⟨⟨2, rfl⟩, ⟨13, rfl⟩⟩

/-- A length register with a value below 2^16. -/
theorem half_value {n : Nat} (h : n < 65536) : (BitVec.ofNat 16 n).toNat = n := by
  rw [BitVec.toNat_ofNat]; exact Nat.mod_eq_of_lt h

/-- The password as long as its buffer, empty, and one byte too long. -/
theorem test_witness_KdfDerivesTheKeyMatrix :
    ({ State.reset with pwlen := BitVec.ofNat 16 Config.engine.pwMax } : State).pwlen.toNat ≤ Config.engine.pwMax
      ∧ State.reset.pwlen = 0
      ∧ Config.engine.pwMax
          < ({ State.reset with pwlen := BitVec.ofNat 16 (Config.engine.pwMax + 1) } : State).pwlen.toNat := by
  have := pwMax_le Config.engine
  dsimp only
  rw [half_value (by omega), half_value (by omega)]
  exact ⟨le_rfl, rfl, by omega⟩

theorem test_witness_KeyMatrixIsTheHexOfTheFirstEightDigestBytes :
    (∃ b : Block, ∀ (j : Nat) (h : j < 8), b[j] = (Config.engine.hash256 [])[j] ^^^ (Config.engine.hash256 [0x41])[j])
      ∧ ∀ (j : Nat) (h : j < 8), (Config.engine.hash256 [])[j] ^^^ (Config.engine.hash256 [0x41])[j] =
          (Config.engine.hash256 [0x41])[j] ^^^ (Config.engine.hash256 [])[j] :=
  ⟨⟨Vector.ofFn fun i => (Config.engine.hash256 [])[i.val] ^^^ (Config.engine.hash256 [0x41])[i.val],
    fun j h => by simp⟩, fun j h => BitVec.xor_comm _ _⟩

theorem test_witness_HxdReadsTheBlockFromHex :
    (∀ n : Fin 32, hexVal ({ State.reset with hx := helloHex } : State).hx[n] ≠ none)
      ∧ hexVal State.reset.hx[(0 : Fin 32)] = none ∧ hexVal (helloHex.set 31 0x67)[(31 : Fin 32)] = none
      ∧ hexVal helloHex[2 * 15] = some 6 ∧ hexVal helloHex[2 * 15 + 1] = some 6 := by decide +kernel

/-- The ends of the three ranges of hex digits, and their neighbours. -/
theorem test_witness_HexDigitsAreTheirCharacters :
    hexVal 0x30 = some 0 ∧ hexVal 0x39 = some 9 ∧ hexVal 0x61 = some 10 ∧ hexVal 0x66 = some 15 ∧ hexVal 0x41 = some 10
      ∧ hexVal 0x46 = some 15 ∧ hexVal 0x2f = none ∧ hexVal 0x3a = none ∧ hexVal 0x40 = none ∧ hexVal 0x47 = none
      ∧ hexVal 0x60 = none ∧ hexVal 0x67 = none := by decide

theorem test_witness_HexCodecRoundTrips :
    hexDec (helloHex.map fun ch => if 0x61 ≤ ch.toNat then ch - 0x20 else ch) = some helloCipher := by decide +kernel

/-- A full chunk before the last and as the last; a short chunk of 0 and of 13 bytes, at the ends of each part. -/
theorem test_witness_ShortFinalChunkIsPadded :
    (0 + 1 < 2 ∨ 5 = 16) ∧ (0 + 1 < 1 ∨ 16 = 16) ∧ (1 ≤ 0 + 1 ∧ 13 ≤ 13 ∧ 12 < 13) ∧ (1 ≤ 0 + 1 ∧ 0 ≤ 13 ∧ 0 ≤ 0 ∧ 0 < 13)
      ∧ (0 ≤ 12 ∧ 12 < 13) ∧ (13 < 16 ∧ 14 < 16 ∧ 15 < 16) := by decide

theorem test_witness_FillerComesFromThePadAlphabet :
    (0x41 ≤ (0x41 : Byte).toNat ∧ (0x41 : Byte).toNat ≤ 0x5A) ∧ (0x61 ≤ (0x7a : Byte).toNat ∧ (0x7a : Byte).toNat ≤ 0x7A)
      ∧ (0x30 ≤ (0x39 : Byte).toNat ∧ (0x39 : Byte).toNat ≤ 0x39) := by decide

/-- Each length one above its buffer's size. -/
theorem test_witness_LengthErrorComesFirst :
    Config.engine.pwMax < (BitVec.ofNat 16 (Config.engine.pwMax + 1)).toNat
      ∧ 16 * Config.engine.maxBlocks < (BitVec.ofNat 16 (16 * Config.engine.maxBlocks + 1)).toNat
      ∧ 32 * Config.engine.maxBlocks < (BitVec.ofNat 16 (32 * Config.engine.maxBlocks + 1)).toNat := by
  have h1 := pwMax_le Config.engine
  have h2 := maxBlocks_le Config.engine
  rw [half_value (by omega), half_value (by omega), half_value (by omega)]
  omega

theorem test_witness_UnpaddableFinalChunkOverflows :
    ∃ s u v w : State,
      (s.mlen.toNat ≤ Config.engine.msgSize ∧ s.pwlen.toNat ≤ Config.engine.pwMax ∧ s.mlen.toNat % 16 = 14)
      ∧ (u.mlen.toNat ≤ Config.engine.msgSize ∧ u.pwlen.toNat ≤ Config.engine.pwMax ∧ u.mlen.toNat % 16 = 15)
      ∧ (v.mlen.toNat ≤ Config.engine.msgSize ∧ v.pwlen.toNat ≤ Config.engine.pwMax ∧ v.mlen.toNat = 13)
      ∧ w.mlen.toNat ≤ Config.engine.msgSize ∧ w.pwlen.toNat ≤ Config.engine.pwMax ∧ w.mlen.toNat = 16 := by
  have := msgSize_pos Config.engine
  have h : State.reset.pwlen.toNat ≤ Config.engine.pwMax := Nat.zero_le _
  have h13 : ((13 : Half).toNat) = 13 := rfl
  have h14 : ((14 : Half).toNat) = 14 := rfl
  have h15 : ((15 : Half).toNat) = 15 := rfl
  have h16 : ((16 : Half).toNat) = 16 := rfl
  exact ⟨{ State.reset with mlen := 14 }, { State.reset with mlen := 15 }, { State.reset with mlen := 13 },
    { State.reset with mlen := 16 }, ⟨by dsimp only; omega, h, by decide⟩, ⟨by dsimp only; omega, h, by decide⟩,
    ⟨by dsimp only; omega, h, by decide⟩, by dsimp only; omega, h, by decide⟩

/-- The empty message, 13 bytes, a full chunk, and a message as long as its buffer. -/
theorem test_witness_EncWritesTheCiphertext :
    (State.reset.ct.wf ∧ EncRuns Config.engine State.reset)
      ∧ EncRuns Config.engine { State.reset with mlen := 13 } ∧ EncRuns Config.engine { State.reset with mlen := 16 }
      ∧ EncRuns Config.engine { State.reset with mlen := BitVec.ofNat 16 Config.engine.msgSize } := by
  have h1 := msgSize_pos Config.engine
  have h2 := msgSize_le Config.engine
  have h : State.reset.pwlen.toNat ≤ Config.engine.pwMax := Nat.zero_le _
  have h13 : ((13 : Half).toNat) = 13 := rfl
  have h16 : ((16 : Half).toNat) = 16 := rfl
  have hm : Config.engine.msgSize % 16 = 0 := by unfold Config.msgSize; omega
  refine ⟨⟨by decide, Nat.zero_le _, h, by decide, by decide⟩, ⟨?_, h, by decide, by decide⟩,
    ⟨?_, h, by decide, by decide⟩, ?_, h, ?_, ?_⟩ <;> dsimp only
  · omega
  · omega
  · rw [half_value (by omega)]
  · rw [half_value (by omega)]; omega
  · rw [half_value (by omega)]; omega

theorem test_witness_EqualChunksGiveEqualCiphertextBlocks :
    ∃ s : State, s.ct.wf ∧ EncRuns vectors s ∧ 16 * 0 + 16 ≤ s.mlen.toNat ∧ 16 * 1 + 16 ≤ s.mlen.toNat
      ∧ ∀ i < 16, s.msg.load (16 * 0 + i) = s.msg.load (16 * 1 + i) := by
  refine ⟨{ State.reset with mlen := 36 }, by decide, ?_, by decide, by decide, fun i _ => rfl⟩
  unfold EncRuns
  decide

/-- A hex string of n characters `0`. -/
def zeros (n : Nat) : Memory := buf (List.replicate n 0x30)

/-- An odd length; 32 characters of which the last is no digit; two good characters. -/
theorem test_witness_MalformedCiphertextIsRejected :
    (∃ s : State, s.ctlen.toNat ≤ Config.engine.ctSize ∧ s.pwlen.toNat ≤ Config.engine.pwMax ∧ s.ctlen.toNat % 2 = 1)
      ∧ (∃ s : State, s.ctlen.toNat ≤ Config.engine.ctSize ∧ s.pwlen.toNat ≤ Config.engine.pwMax
          ∧ ∃ m < s.ctlen.toNat, hexVal (s.ct.load m) = none)
      ∧ ∃ s : State, s.ctlen.toNat ≤ Config.engine.ctSize ∧ s.pwlen.toNat ≤ Config.engine.pwMax
          ∧ s.ctlen.toNat % 32 ≠ 0 := by
  have := ctSize_pos Config.engine
  have h : State.reset.pwlen.toNat ≤ Config.engine.pwMax := Nat.zero_le _
  have h31 : ((31 : Half).toNat) = 31 := rfl
  have h32 : ((32 : Half).toNat) = 32 := rfl
  have h2 : ((2 : Half).toNat) = 2 := rfl
  exact ⟨⟨{ State.reset with ctlen := 31 }, by dsimp only; omega, h, by decide⟩,
    ⟨{ State.reset with ctlen := 32, ct := zeros 31 }, by dsimp only; omega, h, 31, by decide, by decide +kernel⟩,
    ⟨{ State.reset with ctlen := 2, ct := zeros 2 }, by dsimp only; omega, h, by decide⟩⟩

/-- No ciphertext, and one block. -/
theorem test_witness_DecReconstructsTheMessage :
    (State.reset.msg.wf ∧ DecRuns Config.engine State.reset)
      ∧ DecRuns Config.engine { State.reset with ctlen := 32, ct := zeros 32 } := by
  have := ctSize_pos Config.engine
  have h : State.reset.pwlen.toNat ≤ Config.engine.pwMax := Nat.zero_le _
  have h32 : ((32 : Half).toNat) = 32 := rfl
  refine ⟨⟨by decide, Nat.zero_le _, h, by decide, fun m hm => absurd hm (by simp [State.reset])⟩,
    by dsimp only; omega, h, by decide, ?_⟩
  decide +kernel

theorem test_witness_EmptyCiphertextIsAPadFormatError :
    State.reset.ctlen = 0 ∧ State.reset.pwlen.toNat ≤ Config.engine.pwMax := ⟨rfl, Nat.zero_le _⟩

/-- ENC of the empty message and of 14 bytes, DEC of nothing and of one character. -/
theorem test_witness_KeyIsClearedByEncAndDec :
    (cmdEnc Config.engine State.reset).err = .noError
      ∧ (cmdEnc Config.engine { State.reset with mlen := 14 }).err = .paddingOverflowError
      ∧ (cmdDec Config.engine State.reset).err = .padFormatError
      ∧ (cmdDec Config.engine { State.reset with ctlen := 1 }).err = .decodingError := by
  have h1 := msgSize_pos Config.engine
  have h2 := ctSize_pos Config.engine
  have h : State.reset.pwlen.toNat ≤ Config.engine.pwMax := Nat.zero_le _
  have h14 : ((14 : Half).toNat) = 14 := rfl
  have hone : ((1 : Half).toNat) = 1 := rfl
  refine ⟨?_, ?_, ?_, ?_⟩
  · rw [cmdEnc_ok (Nat.zero_le _) h (by decide)]; simp [encodeMessage]
  · rw [cmdEnc_overflow (s := { State.reset with mlen := 14 }) (by dsimp only; omega) h (by decide)]; simp
  · rw [cmdDec_ok (Nat.zero_le _) h (by decide)]
    simp [decodeMessage, State.reset, decBlocks, strip, suffixValue]
  · rw [cmdDec_malformed (s := { State.reset with ctlen := 1 }) (by dsimp only; omega) h (by decide)]; simp

theorem test_witness_ShortMessagesRoundTrip :
    State.reset.msg.wf ∧ State.reset.ct.wf ∧ State.reset.mlen.toNat ≤ 13
      ∧ ({ State.reset with mlen := 13 } : State).mlen.toNat ≤ 13 ∧ State.reset.pwlen.toNat ≤ Config.engine.pwMax :=
  ⟨by decide, by decide, by decide, by decide, Nat.zero_le _⟩

/-- 17 bytes and 29 bytes: a final chunk of 1 and of 13 bytes after one full chunk. -/
theorem test_witness_LongMessagesAreTruncatedToTheFinalLength :
    ∃ s u : State, s.msg.wf ∧ s.ct.wf ∧ 16 < s.mlen.toNat ∧ EncRuns vectors s ∧ s.mlen.toNat % 16 ≠ 0
      ∧ u.mlen.toNat = 29 ∧ EncRuns vectors u := by
  refine ⟨{ State.reset with mlen := 17 }, { State.reset with mlen := 29 }, by decide, by decide, by decide, ?_,
    by decide, by decide, ?_⟩ <;> unfold EncRuns <;> decide

/-- 16 bytes that end in "012", and 16 zero bytes. -/
theorem test_witness_UnpaddedMessagesAreStrippedByTheirOwnTail :
    ∃ s u : State, s.msg.wf ∧ s.ct.wf ∧ 0 < s.mlen.toNat ∧ s.mlen.toNat % 16 = 0 ∧ EncRuns vectors s
      ∧ SuffixDigits s.msg s.mlen.toNat 0 1 2
      ∧ EncRuns vectors u ∧ u.mlen.toNat = 16 ∧ ∀ d2 d1 d0, ¬ SuffixDigits u.msg u.mlen.toNat d2 d1 d0 := by
  refine ⟨{ State.reset with mlen := 16, msg := [(13, 0x30), (14, 0x31), (15, 0x32)] }, { State.reset with mlen := 16 }, by decide,
    by decide, by decide, by decide, ?_, ?_, ?_, by decide, fun d2 d1 d0 h => absurd h.2.1 ?_⟩
  · unfold EncRuns; decide
  · unfold SuffixDigits; decide
  · unfold EncRuns; decide
  · have : digitVal (Memory.load State.reset.msg ((16 : Half).toNat - 3)) = none := by decide
    simp only [this]; simp

/-- Buffers that agree below length 0 and differ from there on. -/
theorem test_witness_BytesBeyondTheLengthAreIgnored :
    (∀ a < State.reset.pwlen.toNat, Memory.load [(0, 0x41)] a = State.reset.pw.load a)
      ∧ (∀ a < State.reset.mlen.toNat, Memory.load [(0, 0x41)] a = State.reset.msg.load a)
      ∧ (∀ a < State.reset.ctlen.toNat, Memory.load [(0, 0x41)] a = State.reset.ct.load a)
      ∧ State.reset.msg.wf ∧ State.reset.ct.wf ∧ Memory.wf [(0, 0x41)] := by
  decide

theorem test_witness_CommandScriptIsTheCommandsInOrder : State.reset.idle := rfl

/-- A password as long as its buffer, a message and a ciphertext as long as theirs, and the four registers' bytes. -/
theorem test_witness_LoadStepsPlaceTheirStrings :
    (∀ l, (hosted (l ++ [])).Inv Config.engine)
      ∧ (HostStep.ldpw (List.replicate Config.engine.pwMax 0x41)).wf Config.engine = true
      ∧ (HostStep.ldmsg (List.replicate Config.engine.msgSize 0x41)).wf Config.engine = true
      ∧ (HostStep.ldct (List.replicate Config.engine.ctSize 0x41)).wf Config.engine = true
      ∧ (HostStep.ldb counting.toList).wf Config.engine = true ∧ (HostStep.ldk counting.toList).wf Config.engine = true
      ∧ (HostStep.ldts testTs.toList).wf Config.engine = true ∧ (HostStep.ldhx helloHex.toList).wf Config.engine = true :=
  ⟨fun l => hosted_inv _, by simp [HostStep.wf], by simp [HostStep.wf], by simp [HostStep.wf], by simp [HostStep.wf],
    by simp [HostStep.wf], by simp [HostStep.wf], by simp [HostStep.wf]⟩

theorem test_witness_StepKeepsTheInvariant :
    State.reset.Inv Config.engine ∧ step State.reset = .next State.reset := ⟨hosted_inv [], rfl⟩

theorem test_witness_EveryRunIsSafe : State.reset.Inv Config.engine := hosted_inv []

end Sys2Proof.Tests
end

