-- ==== Sys2Proof/Proofs/PadAlphabet.lean ====
section

namespace Sys2Proof.Machine

/-- A run of `n` consecutive byte values that does not wrap holds exactly the bytes of that range. -/
theorem mem_map_range_ofNat_iff {base n : Nat} (hfit : base + n ≤ 256) (x : Byte) :
    x ∈ (List.range n).map (fun i => BitVec.ofNat 8 (base + i)) ↔ base ≤ x.toNat ∧ x.toNat < base + n := by
  rw [List.mem_map]
  constructor
  · rintro ⟨i, hi, rfl⟩
    rw [List.mem_range] at hi
    rw [BitVec.toNat_ofNat]
    omega
  · rintro ⟨hlo, hhi⟩
    refine ⟨x.toNat - base, List.mem_range.mpr (by omega), ?_⟩
    rw [Nat.add_sub_cancel' hlo, BitVec.ofNat_toNat, BitVec.setWidth_eq]

/-- What `PAD_ALPHABET` holds (00_scope.md R10): the capitals, the small letters, the digits, the machine's punctuation byte and
the rest of the configuration. -/
theorem mem_padAlphabet_iff (c : Config) (x : Byte) :
    x ∈ padAlphabet c ↔ (0x41 ≤ x.toNat ∧ x.toNat ≤ 0x5A) ∨ (0x61 ≤ x.toNat ∧ x.toNat ≤ 0x7A)
      ∨ (0x30 ≤ x.toNat ∧ x.toNat ≤ 0x39) ∨ x = punctuation c.padPunct ∨ x ∈ c.padRest := by
  simp only [padAlphabet, List.mem_append, List.mem_cons, or_assoc,
    mem_map_range_ofNat_iff (show 0x41 + 26 ≤ 256 by decide), mem_map_range_ofNat_iff (show 0x61 + 26 ≤ 256 by decide),
    mem_map_range_ofNat_iff (show 0x30 + 10 ≤ 256 by decide), Nat.reduceAdd, ← Nat.lt_succ_iff]

theorem punctuation_mem_padAlphabet (c : Config) : punctuation c.padPunct ∈ padAlphabet c := by
  simp only [mem_padAlphabet_iff, true_or, or_true]

/-- Each of the four branches of `punctuation` stays in its own range of ASCII punctuation. -/
theorem punctuation_toNat_range (i : Fin 32) :
    (0x21 ≤ (punctuation i).toNat ∧ (punctuation i).toNat ≤ 0x2F) ∨ (0x3A ≤ (punctuation i).toNat ∧ (punctuation i).toNat ≤ 0x40)
      ∨ (0x5B ≤ (punctuation i).toNat ∧ (punctuation i).toNat ≤ 0x60)
      ∨ (0x7B ≤ (punctuation i).toNat ∧ (punctuation i).toNat ≤ 0x7E) := by
  have hi := i.isLt
  unfold punctuation
  split_ifs <;> rw [BitVec.toNat_ofNat] <;> omega

/-- The draw's index is reduced modulo the alphabet's size, which is not zero, so the default of `fillerByte` is never taken. -/
theorem fillerByte_mem_padAlphabet (c : Config) (n : Nat) : fillerByte c n ∈ padAlphabet c := by
  have hpos : 0 < (padAlphabet c).length := List.length_pos_of_mem (punctuation_mem_padAlphabet c)
  have hlt : c.filler n % (padAlphabet c).length < (padAlphabet c).length := Nat.mod_lt _ hpos
  rw [fillerByte, List.getElem?_eq_getElem hlt, Option.getD_some]
  exact List.getElem_mem hlt

/-- Settles O36: letters and digits by what the alphabet holds, the punctuation by the configuration's own byte, the draws by
their index. -/
theorem fillerComesFromThePadAlphabet : Obligations.FillerComesFromThePadAlphabet := by
  intro c
  refine ⟨fun x hx => ?_, ⟨punctuation c.padPunct, punctuation_mem_padAlphabet c, punctuation_toNat_range _⟩,
    fillerByte_mem_padAlphabet c⟩
  rw [mem_padAlphabet_iff]
  exact hx.imp_right (Or.imp_right Or.inl)

end Sys2Proof.Machine
end

