-- ==== Sys2Proof/Proofs/StateFamily.lean ====
section

namespace Sys2Proof.Machine

/-! The earlier outcome: `ERR` and `BUSY` are written by every command and read by none (10_state.md R28, 60_exceptions.md R203) -/

/-- Whatever `ERR` and `BUSY` were, the end of a command overwrites both. -/
theorem endCommand_withOutcome (f : ErrCode) (s : State) (e : ErrCode) (x : Bool) :
    endCommand f { s with err := e, busy := x } = endCommand f s := rfl

theorem transformB_withOutcome (f : Block → Block) (s : State) (e : ErrCode) (x : Bool) :
    transformB f { s with err := e, busy := x } = transformB f s := rfl

theorem captureNow_withOutcome (c : Config) (s : State) (e : ErrCode) (x : Bool) :
    captureNow c { s with err := e, busy := x } = { captureNow c s with err := e, busy := x } := rfl

theorem deriveK_withOutcome (c : Config) (s : State) (e : ErrCode) (x : Bool) :
    deriveK c { s with err := e, busy := x } = { deriveK c s with err := e, busy := x } := rfl

theorem clearK_withOutcome (s : State) (e : ErrCode) (x : Bool) :
    clearK { s with err := e, busy := x } = { clearK s with err := e, busy := x } := rfl

theorem malformedHex_withOutcome (s : State) (e : ErrCode) (x : Bool) :
    malformedHex { s with err := e, busy := x } = malformedHex s := rfl

theorem strip_withOutcome (len : Nat) (s : State) (e : ErrCode) (x : Bool) :
    strip len { s with err := e, busy := x } = strip len s := by
  simp only [strip_eq]

theorem cmdKdf_withOutcome (c : Config) (s : State) (e : ErrCode) (x : Bool) :
    cmdKdf c { s with err := e, busy := x } = cmdKdf c s := by
  by_cases h : s.pwlen.toNat ≤ c.pwMax
  · rw [cmdKdf_ok h, cmdKdf_ok (s := { s with err := e, busy := x }) h, deriveK_withOutcome]
    exact endCommand_withOutcome ..
  · rw [cmdKdf_long (Nat.not_le.1 h), cmdKdf_long (s := { s with err := e, busy := x }) (Nat.not_le.1 h)]
    exact endCommand_withOutcome ..

theorem cmdHxd_withOutcome (s : State) (e : ErrCode) (x : Bool) :
    cmdHxd { s with err := e, busy := x } = cmdHxd s := by
  cases h : hexDec s.hx with
  | none =>
    rw [cmdHxd_none h, cmdHxd_none (s := { s with err := e, busy := x }) h]
    exact endCommand_withOutcome ..
  | some y =>
    rw [cmdHxd_some h, cmdHxd_some (s := { s with err := e, busy := x }) h]
    exact endCommand_withOutcome _ { s with b := y } e x

/-- ENC carries the earlier outcome through its loop and overwrites it at the end. -/
theorem cmdEnc_withOutcome (c : Config) (s : State) (e : ErrCode) (x : Bool) :
    cmdEnc c { s with err := e, busy := x } = cmdEnc c s := by
  simp only [cmdEnc_eq, captureNow_withOutcome, deriveK_withOutcome, encPrefix_withOutcome]

/-- DEC carries the earlier outcome through its loop and overwrites it in the strip. -/
theorem cmdDec_withOutcome (c : Config) (s : State) (e : ErrCode) (x : Bool) :
    cmdDec c { s with err := e, busy := x } = cmdDec c s := by
  simp only [cmdDec_eq, malformedHex_withOutcome, deriveK_withOutcome, decPrefix_withOutcome, clearK_withOutcome,
    strip_withOutcome]

theorem effect_withOutcome (i : Instr) (s : State) (e : ErrCode) (x : Bool) :
    effect i { s with err := e, busy := x } = effect i s := by
  cases i with
  | sbf | sbi | prm | upr | rot => exact transformB_withOutcome ..
  | xky => exact transformB_withOutcome (xorKey · s.k) s e x
  | bfw => exact transformB_withOutcome (forward Config.engine · s.k) s e x
  | bin => exact transformB_withOutcome (inverse Config.engine · s.k) s e x
  | kdf => exact cmdKdf_withOutcome ..
  | hxe => exact endCommand_withOutcome _ { s with hx := hexEnc s.b } e x
  | hxd => exact cmdHxd_withOutcome ..
  | enc => exact cmdEnc_withOutcome ..
  | dec => exact cmdDec_withOutcome ..

/-- Settles O50: no command's effect depends on the `ERR` and `BUSY` it starts from. -/
theorem outcomeIgnoresTheErrorBefore : Obligations.OutcomeIgnoresTheErrorBefore := by
  intro i s e x
  rw [exec_eq_effect, exec_eq_effect, effect_withOutcome]

/-! One step, by what the host's turn comes to -/

theorem step_settled {s : State} {o : Host.Outcome State Fault Refusal} (h : hostTurn Config.engine s = .settled o) :
    step s = o := by
  simp only [step, h]

theorem step_command {s t : State} {v : Byte} {i : Instr} (h : hostTurn Config.engine s = .command v t)
    (hd : decode v = .instr i) : step s = exec i t := by
  simp only [step, h, hd]

/-- Settles O3: the host's turn is the accepted byte, which the step decodes and executes. -/
theorem stepRunsTheDecodedCommand : Obligations.StepRunsTheDecodedCommand := by
  intro s v rest i hidle hscript hdecode
  have hturn := hostTurn_cmd (c := Config.engine) hidle hscript
  exact step_command hturn hdecode

/-! A read of the `NOW` window -/

/-- A turn that settles in a next state is, on the machine's own configuration, the whole step. -/
theorem settlesTo_of_hostTurn {c : Config} {s t : State} (h : hostTurn c s = .settled (.next t)) :
    Claims.SettlesTo c s t :=
  ⟨h, fun hc => step_settled (hc ▸ h)⟩

/-- The read returns byte i of the next draw and counts the draw (10_state.md R32, 70_reset_and_hazards.md R220). -/
theorem busRead_now (c : Config) (i : Fin 16) (s : State) :
    busRead c (Claims.at_ 0x0040 i) s = { s with
      nowDraws := s.nowDraws + 1
      reads := { addr := Claims.at_ 0x0040 i, data := (c.now s.nowDraws)[i] } :: s.reads } := by
  simp only [busRead, locate_now, countDraw, locRead]

/-- Settles O14: an idle engine's turn is the bus read, here of the `NOW` window. -/
theorem nowReadIsAFreshDraw : Obligations.NowReadIsAFreshDraw := by
  intro c s i rest hidle hscript
  have hturn := hostTurn_read (c := c) hidle hscript
  rw [busRead_now] at hturn
  exact settlesTo_of_hostTurn hturn

/-! The reset state -/

theorem Memory.wf_nil : Memory.wf [] := ⟨.nil, nofun⟩

theorem Memory.within_nil (size : Nat) : Memory.within [] size := nofun

/-- Settles O54: the reset state is idle and its three buffers are empty lists. -/
theorem resetStateIsWellFormed : Obligations.ResetStateIsWellFormed where
  idle := rfl
  buffers :=
    { pwWf := Memory.wf_nil, pwSize := Memory.within_nil _, msgWf := Memory.wf_nil, msgSize := Memory.within_nil _
      ctWf := Memory.wf_nil, ctSize := Memory.within_nil _ }

end Sys2Proof.Machine
end

