-- ==== Sys2Proof/Proofs/MemoryFamily.lean ====
section

namespace Sys2Proof.Machine

open Sys2Proof.Claims

/-! The commands with two ends, in one equation each -/

theorem cmdKdf_eq (c : Config) (s : State) : cmdKdf c s =
    if c.pwMax < s.pwlen.toNat then { s with err := .lengthError, busy := false }
    else { s with k := derive c (password s) s.ts.toList, err := .noError, busy := false } := by
  simp only [cmdKdf, passwordTooLong, raise_eq, complete_eq, deriveK]

theorem cmdHxd_eq (s : State) : cmdHxd s = { s with
    b := (hexDec s.hx).getD s.b
    err := if (hexDec s.hx).isSome then .noError else .decodingError
    busy := false } := by
  cases h : hexDec s.hx with
  | none => rw [cmdHxd_none h, raise_eq]; rfl
  | some y => rw [cmdHxd_some h, complete_eq]; rfl

/-! What no command writes (30_encoding.md R76) -/

/-- ENC leaves these fields to its loop, which carries them along, and clears `BUSY` at each of its ends. -/
theorem cmdEnc_frame (c : Config) (s : State) : cmdEnc c s = { cmdEnc c s with
    cmd := s.cmd, busy := false, pw := s.pw, pwlen := s.pwlen, script := s.script, reads := s.reads } := by
  rw [cmdEnc_eq]
  split_ifs
  · rfl
  · rfl
  · rw [encPrefix_frame]
    simp only [deriveK, captureNow]

/-- DEC likewise, its strip clearing `BUSY`. -/
theorem cmdDec_frame (c : Config) (s : State) : cmdDec c s = { cmdDec c s with
    cmd := s.cmd, busy := false, pw := s.pw, pwlen := s.pwlen, script := s.script, reads := s.reads } := by
  rw [cmdDec_eq]
  split_ifs
  · rfl
  · rfl
  · rw [strip_eq, decPrefix_frame]
    simp only [clearK, deriveK]

theorem effect_frame (i : Instr) (s : State) : effect i s = { effect i s with
    cmd := s.cmd, busy := false, pw := s.pw, pwlen := s.pwlen, script := s.script, reads := s.reads } := by
  cases i with
  | sbf | sbi | prm | upr | rot | xky | bfw | bin | hxe => rfl
  | kdf => simp only [effect, cmdKdf_eq]; split_ifs <;> rfl
  | hxd => simp only [effect, cmdHxd_eq]
  | enc => exact cmdEnc_frame ..
  | dec => exact cmdDec_frame ..

@[simp] theorem effect_cmd (i : Instr) (s : State) : (effect i s).cmd = s.cmd := by rw [effect_frame]
@[simp] theorem effect_busy (i : Instr) (s : State) : (effect i s).busy = false := by rw [effect_frame]
@[simp] theorem effect_script (i : Instr) (s : State) : (effect i s).script = s.script := by rw [effect_frame]
@[simp] theorem effect_reads (i : Instr) (s : State) : (effect i s).reads = s.reads := by rw [effect_frame]

/-! One host operation on an idle engine: the step it is, and that the engine is idle after it -/

theorem hostTurn_nil {c : Config} {s : State} (hs : s.script = []) : hostTurn c s = .settled (.next s) := by
  simp only [hostTurn, hs]

theorem hostTurn_reset {c : Config} {s : State} {rest : List HostOp} (hs : s.script = .reset :: rest) :
    hostTurn c s = .settled (.next (resetEngine { s with script := rest })) := by
  simp [hostTurn, hs, hostOp, busyAllows]

theorem step_rejected {s t : State} {v : Byte} {why : DecodeReject} (h : hostTurn Config.engine s = .command v t)
    (hd : decode v = .rejected why) : step s = .next (raise .illegalCommand t) := by
  simp only [step, h, hd]

/-- What every byte written to `CMD` does alike: it ends idle with the byte in `CMD`, whatever command it was or was not
(10_state.md R26, 20_memory.md R59). -/
theorem step_write_cmd {s : State} {v : Byte} {rest : List HostOp} (hidle : s.idle)
    (hs : s.script = .write 0x0000 v :: rest) :
    ∃ t, step s = .next t ∧ t.idle ∧ t.cmd = v ∧ t.script = rest ∧ t.reads = s.reads := by
  have hturn := hostTurn_cmd (c := Config.engine) hidle hs
  cases hd : decode v with
  | instr i => exact ⟨_, (step_command hturn hd).trans (exec_eq_effect i _), effect_busy .., by simp⟩
  | rejected why => exact ⟨_, step_rejected hturn hd, rfl, by simp⟩

/-- A write to a location other than `CMD` is the whole step. -/
theorem step_write {s : State} {a : Addr} {v : Byte} {rest : List HostOp} (hidle : s.idle)
    (hs : s.script = .write a v :: rest) (ha : locate Config.engine a ≠ .cmd) :
    step s = .next (locWrite v { s with script := rest } (locate Config.engine a)) :=
  step_settled (hostTurn_write hidle hs ha)

@[simp] theorem locWrite_busy (v : Byte) (s : State) (l : Loc) : (locWrite v s l).busy = s.busy := by cases l <;> rfl
@[simp] theorem locWrite_reads (v : Byte) (s : State) (l : Loc) : (locWrite v s l).reads = s.reads := by cases l <;> rfl

theorem locWrite_withScript (v : Byte) (s : State) (l : Loc) (ops : List HostOp) :
    locWrite v { s with script := ops } l = { locWrite v s l with script := ops } := by
  cases l <;> rfl

theorem locRead_withHost (c : Config) (s : State) (l : Loc) (ops : List HostOp) (rs : List BusRead) :
    locRead c { s with script := ops, reads := rs } l = locRead c s l := by
  cases l <;> rfl

/-- Only a read of the `NOW` window has an effect beside the record of the read (20_memory.md R50). -/
theorem busRead_eq {c : Config} {a : Addr} {l : Loc} (hl : locate c a = l) (hnow : ∀ i, l ≠ .now i) (s : State) :
    busRead c a s = { s with reads := { addr := a, data := locRead c s l } :: s.reads } := by
  have hdraw : countDraw s l = s := by
    cases l with
    | now i => exact absurd rfl (hnow i)
    | _ => rfl
  simp only [busRead, hl, hdraw]

@[simp] theorem busRead_busy (c : Config) (a : Addr) (s : State) : (busRead c a s).busy = s.busy := by
  simp only [busRead]
  cases locate c a <;> rfl

/-! No run ends in a fault or a refusal -/

/-- The only refusal is that of an access to a busy engine, and every operation leaves the engine idle. -/
theorem step_of_idle {s : State} (hidle : s.idle) : ∃ t, step s = .next t ∧ t.idle := by
  rcases hs : s.script with _ | ⟨_ | _ | _, rest⟩
  case nil => exact ⟨s, step_settled (hostTurn_nil hs), hidle⟩
  case cons.write a v =>
    by_cases ha : locate Config.engine a = .cmd
    · obtain rfl := (locate_eq_cmd _ _).1 ha
      obtain ⟨t, ht, hti, -⟩ := step_write_cmd hidle hs
      exact ⟨t, ht, hti⟩
    · exact ⟨_, step_write hidle hs ha, (locWrite_busy ..).trans hidle⟩
  case cons.read a => exact ⟨_, step_settled (hostTurn_read hidle hs), (busRead_busy ..).trans hidle⟩
  case cons.reset => exact ⟨_, step_settled (hostTurn_reset hs), rfl⟩

theorem safeRun_of_idle (n : Nat) {s : State} (hidle : s.idle) : SafeRun n s := by
  induction n generalizing s with
  | zero => exact ⟨s, run_zero s⟩
  | succ n ih =>
    obtain ⟨t, ht, hti⟩ := step_of_idle hidle
    obtain ⟨u, hu⟩ := ih hti
    exact ⟨u, (run_succ ht).trans hu⟩

/-- Settles O56: idleness is all that the progress of a step needs, and every step keeps it. -/
theorem everyRunIsSafe : Obligations.EveryRunIsSafe :=
  fun n _ hinv => safeRun_of_idle n hinv.idle

/-! Reads -/

/-- What a read of a location gives, for every location but the `NOW` window. -/
theorem readGives_of_locate {c : Config} {s : State} {a : Addr} {l : Loc} (hidle : s.idle) (hl : locate c a = l)
    (hnow : ∀ i, l ≠ .now i) : ReadGives c s a (locRead c s l) := by
  intro rest hs
  have hturn := hostTurn_read (c := c) hidle hs
  rw [busRead_eq hl hnow, locRead_withHost] at hturn
  exact settlesTo_of_hostTurn hturn

theorem statusByte_idle {s : State} (hidle : s.idle) : statusByte s.busy = 0x00 := by
  rw [hidle]; rfl

/-- Settles O11: each address of the map is located, and an idle read shows the location's byte. -/
theorem busReadReturnsTheMappedLocation : Obligations.BusReadReturnsTheMappedLocation := by
  intro c s hidle
  have read {a : Addr} {l : Loc} (hl : locate c a = l) (hnow : ∀ i, l ≠ .now i) : ReadGives c s a (locRead c s l) :=
    readGives_of_locate hidle hl hnow
  simp only [← loByte_eq, ← hiByte_eq]
  refine ⟨read (locate_cmd c) nofun, ?_, read (locate_err c) nofun, read (locate_mlenLo c) nofun,
    read (locate_mlenHi c) nofun, read (locate_ctlenLo c) nofun, read (locate_ctlenHi c) nofun,
    read (locate_pwlenLo c) nofun, read (locate_pwlenHi c) nofun, fun i => ⟨?_, ?_, ?_⟩, fun i => ?_, fun i hi => ?_,
    fun i hi => ?_, fun i hi => ?_⟩
  · exact statusByte_idle hidle ▸ read (locate_status c) nofun
  · exact read (locate_b c i) nofun
  · exact read (locate_k c i) nofun
  · exact read (locate_ts c i) nofun
  · exact read (locate_hx c i) nofun
  · exact read (locate_pw c hi) nofun
  · exact read (locate_msg c hi) nofun
  · exact read (locate_ct c hi) nofun

/-- A read of a location outside the `NOW` window is the whole step. -/
theorem step_read {s : State} {a : Addr} {l : Loc} {rest : List HostOp} (hidle : s.idle)
    (hs : s.script = .read a :: rest) (hl : locate Config.engine a = l) (hnow : ∀ i, l ≠ .now i) :
    step s = .next { s with script := rest, reads := { addr := a, data := locRead Config.engine s l } :: s.reads } :=
  (readGives_of_locate hidle hl hnow rest hs).2 rfl

/-- A run of two steps whose second is a read records what the first step left at the location. -/
theorem run_then_read {s t : State} {a : Addr} {l : Loc} {rest : List HostOp} (hstep : step s = .next t)
    (hidle : t.idle) (hs : t.script = .read a :: rest) (hl : locate Config.engine a = l) (hnow : ∀ i, l ≠ .now i) :
    Sys2Proof.core.run 2 s = .next { t with
      script := rest, reads := { addr := a, data := locRead Config.engine t l } :: t.reads } :=
  (run_succ hstep).trans ((run_succ (step_read hidle hs hl hnow)).trans (run_zero _))

/-- Two reads in order record both bytes of the state they started from. -/
theorem run_two_reads {s : State} {a a' : Addr} {l l' : Loc} {rest : List HostOp} (hidle : s.idle)
    (hs : s.script = .read a :: .read a' :: rest) (hl : locate Config.engine a = l) (hnow : ∀ i, l ≠ .now i)
    (hl' : locate Config.engine a' = l') (hnow' : ∀ i, l' ≠ .now i) :
    Sys2Proof.core.run 2 s = .next { s with
      script := rest
      reads := ⟨a', locRead Config.engine s l'⟩ :: ⟨a, locRead Config.engine s l⟩ :: s.reads } := by
  have hrun := run_then_read (step_read hidle hs hl hnow) hidle rfl hl' hnow'
  rwa [locRead_withHost] at hrun

/-- Settles O15: the two bytes read are the register's halves. -/
theorem lengthRegistersReadLittleEndian : Obligations.LengthRegistersReadLittleEndian := by
  intro s rest hidle
  refine ⟨fun hs => ⟨loByte s.mlen, hiByte s.mlen, ?_, halves_join _⟩,
    fun hs => ⟨loByte s.ctlen, hiByte s.ctlen, ?_, halves_join _⟩,
    fun hs => ⟨loByte s.pwlen, hiByte s.pwlen, ?_, halves_join _⟩⟩
  · exact run_two_reads hidle hs (locate_mlenLo _) nofun (locate_mlenHi _) nofun
  · exact run_two_reads hidle hs (locate_ctlenLo _) nofun (locate_ctlenHi _) nofun
  · exact run_two_reads hidle hs (locate_pwlenLo _) nofun (locate_pwlenHi _) nofun

/-! Writes -/

/-- What a write to a location leaves, for every location but `CMD`. -/
theorem writeGives_of_locate {c : Config} {s : State} {a : Addr} {l : Loc} (hidle : s.idle) (hl : locate c a = l)
    (hcmd : l ≠ .cmd) (v : Byte) : WriteGives c s a v (locWrite v s l) := by
  subst hl
  intro rest hs
  have hturn := hostTurn_write (c := c) hidle hs hcmd
  rw [locWrite_withScript] at hturn
  exact settlesTo_of_hostTurn hturn

/-- Settles O12: each writable address is located, and an idle write replaces the location's byte. -/
theorem busWriteChangesTheMappedLocationAlone : Obligations.BusWriteChangesTheMappedLocationAlone := by
  intro c s v hidle
  have write {a : Addr} {l : Loc} (hl : locate c a = l) (hcmd : l ≠ .cmd) : WriteGives c s a v (locWrite v s l) :=
    writeGives_of_locate hidle hl hcmd v
  simp only [← setLo_eq, ← setHi_eq]
  refine ⟨write (locate_mlenLo c) nofun, write (locate_mlenHi c) nofun, write (locate_ctlenLo c) nofun,
    write (locate_ctlenHi c) nofun, write (locate_pwlenLo c) nofun, write (locate_pwlenHi c) nofun,
    fun i => ⟨?_, ?_, ?_⟩, fun i => ?_, fun i hi => ?_, fun i hi => ?_, fun i hi => ?_⟩
  · exact write (locate_b c i) nofun
  · exact write (locate_k c i) nofun
  · exact write (locate_ts c i) nofun
  · exact write (locate_hx c i) nofun
  · exact write (locate_pw c hi) nofun
  · exact write (locate_msg c hi) nofun
  · exact write (locate_ct c hi) nofun

/-! The holes of the map and the read-only locations -/

theorem registerLoc_reserved : ∀ n < 0x0080,
    n = 0x0003 ∨ (0x000A ≤ n ∧ n ≤ 0x000F) ∨ (0x0050 ≤ n ∧ n ≤ 0x005F) → registerLoc n = .reserved := by
  decide

/-- The holes from 0x0080 on: between the windows, and in a window at or above its buffer's size. -/
theorem windowLoc_reserved {c : Config} {n : Nat}
    (h : (0x0080 ≤ n ∧ n ≤ 0x00FF) ∨ (0x0100 + c.pwMax ≤ n ∧ n ≤ 0x3FFF) ∨ (0x4000 + c.msgSize ≤ n ∧ n ≤ 0x7FFF)
      ∨ 0x8000 + c.ctSize ≤ n) : windowLoc c n = .reserved := by
  unfold windowLoc bufferLoc
  split_ifs
  · omega -- in `CT`
  · rfl
  · omega -- in `MSG`
  · rfl
  · rfl
  · omega -- in `PW`
  · rfl
  · rfl

theorem locate_unmapped {c : Config} {a : Addr} (h : Unmapped c a) : locate c a = .reserved := by
  unfold Unmapped at h
  by_cases hlow : a.toNat < 0x0080
  · rw [locate_low c hlow]
    exact registerLoc_reserved _ hlow (by omega)
  · rw [locate_high c (by omega)]
    exact windowLoc_reserved (by omega)

/-- A location that ignores writes (20_memory.md R53). -/
def Loc.readOnly : Loc → Bool
  | .status | .err | .now _ | .reserved => true
  | _ => false

theorem locWrite_readOnly {l : Loc} (h : l.readOnly = true) (v : Byte) (s : State) : locWrite v s l = s := by
  cases l with
  | status | err | now | reserved => rfl
  | _ => cases h

theorem writeGives_readOnly {c : Config} {s : State} {a : Addr} (hidle : s.idle)
    (h : (locate c a).readOnly = true) (v : Byte) : WriteGives c s a v s := by
  have hcmd : locate c a ≠ .cmd := fun e => by rw [e] at h; cases h
  have hgives := writeGives_of_locate hidle rfl hcmd v
  rwa [locWrite_readOnly h] at hgives

theorem registerLoc_readOnly : ∀ n < 0x0080,
    n = 0x0001 ∨ n = 0x0002 ∨ (0x0040 ≤ n ∧ n ≤ 0x004F) → (registerLoc n).readOnly = true := by
  decide

/-- Settles O13: a hole of the map is located as reserved, and reserved and read-only locations ignore writes. -/
theorem unmappedAndReadOnlyLocations : Obligations.UnmappedAndReadOnlyLocations := by
  intro c s a v hidle
  refine ⟨fun hun => ?_, fun hro => ?_⟩
  · have hl := locate_unmapped hun
    exact ⟨readGives_of_locate hidle hl nofun, writeGives_readOnly hidle (by rw [hl]; rfl) v⟩
  · have hlow : a.toNat < 0x0080 := by omega
    refine writeGives_readOnly hidle ?_ v
    rw [locate_low c hlow]
    exact registerLoc_readOnly _ hlow hro

/-! Read after write -/

theorem loByte_setLo (w : Half) (v : Byte) : loByte (setLo w v) = v := by
  apply BitVec.eq_of_toNat_eq
  rw [loByte_eq, setLo_eq, BitVec.toNat_ofNat, BitVec.toNat_ofNat]
  omega

theorem hiByte_setHi (w : Half) (v : Byte) : hiByte (setHi w v) = v := by
  apply BitVec.eq_of_toNat_eq
  rw [hiByte_eq, setHi_eq, BitVec.toNat_ofNat, BitVec.toNat_ofNat]
  omega

/-- A location that takes a byte shows it; the buffers need their canonical form. -/
theorem locRead_locWrite {c : Config} {s : State} {l : Loc} (hb : s.buffersWf c) (h : l.readOnly = false) (v : Byte) :
    locRead c (locWrite v s l) l = v := by
  cases l with
  | cmd => rfl
  | status | err | now | reserved => cases h
  | mlenLo | ctlenLo | pwlenLo => exact loByte_setLo ..
  | mlenHi | ctlenHi | pwlenHi => exact hiByte_setHi ..
  | b | k | ts | hx => exact Vector.getElem_set_self _
  | pw i => exact (Memory.load_store hb.pwWf i v i).trans (if_pos rfl)
  | msg i => exact (Memory.load_store hb.msgWf i v i).trans (if_pos rfl)
  | ct i => exact (Memory.load_store hb.ctWf i v i).trans (if_pos rfl)

theorem eq_window {a : Addr} {base : Nat} (h : base ≤ a.toNat) : a = at_ base (a.toNat - base) := by
  rw [at_, Nat.add_sub_cancel' h, BitVec.ofNat_toNat, BitVec.setWidth_eq]

theorem registerLoc_writable : ∀ n < 0x0080,
    n = 0x0000 ∨ (0x0004 ≤ n ∧ n ≤ 0x0009) ∨ (0x0010 ≤ n ∧ n ≤ 0x003F) ∨ (0x0060 ≤ n ∧ n ≤ 0x007F) →
      (registerLoc n).readOnly = false := by
  decide

theorem locate_writable {c : Config} {a : Addr} (h : Writable c a) : (locate c a).readOnly = false := by
  by_cases hlow : a.toNat < 0x0080
  · rw [locate_low c hlow]
    unfold Writable at h
    exact registerLoc_writable _ hlow (by omega)
  · obtain h | h | h | h | ⟨hlo, hhi⟩ | ⟨hlo, hhi⟩ | ⟨hlo, hhi⟩ := h
    iterate 4 omega -- the registers, which are below 0x0080
    · rw [eq_window hlo, locate_pw c (by omega)]; rfl
    · rw [eq_window hlo, locate_msg c (by omega)]; rfl
    · rw [eq_window hlo, locate_ct c (by omega)]; rfl

theorem ne_now_of_not_readOnly {l : Loc} (h : l.readOnly = false) (i : Fin 16) : l ≠ .now i := by
  rintro rfl
  cases h

/-- Settles O16: `CMD` keeps its byte through the command, every other writable location shows what it took. -/
theorem writtenByteReadsBack : Obligations.WrittenByteReadsBack := by
  intro s a v rest hinv hw hs
  have hl := locate_writable hw
  have hnow := ne_now_of_not_readOnly hl
  by_cases ha : locate Config.engine a = .cmd
  · obtain rfl := (locate_eq_cmd _ _).1 ha
    obtain ⟨t, ht, hidle, hcmd, hscript, hreads⟩ := step_write_cmd hinv.idle hs
    refine ⟨_, run_then_read ht hidle hscript ha nofun, ?_, rfl⟩
    rw [locRead, hcmd, hreads]
  · have hstep := step_write hinv.idle hs ha
    rw [locWrite_withScript] at hstep
    refine ⟨_, run_then_read hstep ((locWrite_busy ..).trans hinv.idle) rfl rfl hnow, ?_, rfl⟩
    rw [locRead_withHost, locRead_locWrite hinv.buffers hl, locWrite_reads]

/-! The host's script: no command reads it, and what is left of it stays -/

theorem cmdKdf_withScript (c : Config) (s : State) (ops : List HostOp) :
    cmdKdf c { s with script := ops } = { cmdKdf c s with script := ops } := by
  simp only [cmdKdf_eq, password]
  split_ifs <;> rfl

theorem deriveK_withScript (c : Config) (s : State) (ops : List HostOp) :
    deriveK c { s with script := ops } = { deriveK c s with script := ops } := rfl

theorem captureNow_withScript (c : Config) (s : State) (ops : List HostOp) :
    captureNow c { s with script := ops } = { captureNow c s with script := ops } := rfl

theorem malformedHex_withScript (s : State) (ops : List HostOp) :
    malformedHex { s with script := ops } = malformedHex s := rfl

theorem cmdEnc_withScript (c : Config) (s : State) (ops : List HostOp) :
    cmdEnc c { s with script := ops } = { cmdEnc c s with script := ops } := by
  simp only [cmdEnc_eq, captureNow_withScript, deriveK_withScript, encPrefix_withScript]
  split_ifs <;> rfl

theorem cmdDec_withScript (c : Config) (s : State) (ops : List HostOp) :
    cmdDec c { s with script := ops } = { cmdDec c s with script := ops } := by
  simp only [cmdDec_eq, malformedHex_withScript, deriveK_withScript, decPrefix_withScript, clearK, strip_eq]
  split_ifs <;> rfl

theorem effect_withScript (i : Instr) (s : State) (ops : List HostOp) :
    effect i { s with script := ops } = { effect i s with script := ops } := by
  cases i with
  | sbf | sbi | prm | upr | rot | xky | bfw | bin | hxe => rfl
  | kdf => exact cmdKdf_withScript ..
  | hxd => simp only [effect, cmdHxd_eq]
  | enc => exact cmdEnc_withScript ..
  | dec => exact cmdDec_withScript ..

theorem decode_encode (i : Instr) : decode (encode i) = .instr i := by
  cases i <;> decide

theorem execSequence_cons (i : Instr) (is : List Instr) (s : State) :
    execSequence (i :: is) s = execSequence is (effect i (accept (encode i) s)) := by
  simp only [execSequence, exec_eq_effect, accept]

/-- A write of a command's byte is, in one step, the command's effect on the accepted state; what follows in the script stays. -/
theorem step_write_encode {s : State} (hidle : s.idle) (i : Instr) (ops : List HostOp) :
    step { s with script := .write 0x0000 (encode i) :: ops }
      = .next { effect i (accept (encode i) s) with script := ops } := by
  have hturn := hostTurn_cmd (c := Config.engine) (s := { s with script := .write 0x0000 (encode i) :: ops }) hidle rfl
  rw [step_command hturn (decode_encode i), exec_eq_effect, ← effect_withScript]
  rfl

/-- Settles O52, by induction on the list: a step runs the first command and leaves the engine idle, and the script the next
commands come from is nothing a command sees. -/
theorem commandScriptIsTheCommandsInOrder : Obligations.CommandScriptIsTheCommandsInOrder := by
  intro is
  induction is with
  | nil => exact fun s rest _ => run_zero _
  | cons i is ih =>
    intro s rest hidle
    have hidle' : (effect i (accept (encode i) s)).idle := effect_busy ..
    refine (run_succ (step_write_encode hidle i _)).trans ((ih _ rest hidle').trans ?_)
    rw [execSequence_cons, ← effect_withScript]
    rfl

/-! Buffer bytes at or beyond the length register's value: no command reads them (20_memory.md R63, 10_state.md R31) -/

theorem password_withPw {s : State} {m : Memory} (h : ∀ a < s.pwlen.toNat, m.load a = s.pw.load a) :
    password { s with pw := m } = password s :=
  Memory.loadAll_congr fun i hi => by simpa only [Nat.zero_add] using h i hi

theorem deriveK_withPw {c : Config} {s : State} {m : Memory} (h : ∀ a < s.pwlen.toNat, m.load a = s.pw.load a) :
    deriveK c { s with pw := m } = { deriveK c s with pw := m } := by
  simp only [deriveK, password_withPw h]

theorem malformedHex_withPw (s : State) (m : Memory) : malformedHex { s with pw := m } = malformedHex s := rfl

theorem captureNow_withPw (c : Config) (s : State) (m : Memory) :
    captureNow c { s with pw := m } = { captureNow c s with pw := m } := rfl

theorem effect_withPw (i : Instr) {s : State} {m : Memory} (h : ∀ a < s.pwlen.toNat, m.load a = s.pw.load a) :
    effect i { s with pw := m } = { effect i s with pw := m } := by
  cases i with
  | sbf | sbi | prm | upr | rot | xky | bfw | bin | hxe => rfl
  | kdf =>
    simp only [effect, cmdKdf_eq, password_withPw h]
    split_ifs <;> rfl
  | hxd => simp only [effect, cmdHxd_eq]
  | enc =>
    have hk : deriveK Config.engine { captureNow Config.engine s with pw := m }
        = { deriveK Config.engine (captureNow Config.engine s) with pw := m } :=
      deriveK_withPw (s := captureNow Config.engine s) h
    simp only [effect, cmdEnc_eq, captureNow_withPw, hk, encPrefix_withPw]
    split_ifs <;> rfl
  | dec =>
    simp only [effect, cmdDec_eq, malformedHex_withPw, deriveK_withPw h, decPrefix_withPw, clearK, strip_eq]
    split_ifs <;> rfl

theorem deriveK_withMsg (c : Config) (s : State) (m : Memory) :
    deriveK c { s with msg := m } = { deriveK c s with msg := m } := rfl

theorem captureNow_withMsg (c : Config) (s : State) (m : Memory) :
    captureNow c { s with msg := m } = { captureNow c s with msg := m } := rfl

theorem malformedHex_withMsg (s : State) (m : Memory) : malformedHex { s with msg := m } = malformedHex s := rfl

theorem strip_withMsg {len : Nat} {s : State} {m : Memory} (h : suffixValue m len = suffixValue s.msg len) :
    strip len { s with msg := m } = { strip len s with msg := m } := by
  simp only [strip_eq, h]

/-- ENC reads message bytes below `MLEN` alone. -/
theorem cmdEnc_withMsg (c : Config) {s : State} {m : Memory} (h : ∀ a < s.mlen.toNat, m.load a = s.msg.load a) :
    cmdEnc c { s with msg := m } = { cmdEnc c s with msg := m } := by
  have hmsg : ∀ a < s.mlen.toNat, m.load a = (deriveK c (captureNow c s)).msg.load a := by
    simpa only [deriveK_msg, captureNow_msg] using h
  have hloop := encPrefix_withMsg (c := c) hmsg (Nat.le_refl _)
  simp only [cmdEnc_eq, captureNow_withMsg, deriveK_withMsg, hloop]
  split_ifs <;> rfl

/-- DEC overwrites the bytes its strip reads, so two canonical message buffers end in the same outcome. -/
theorem cmdDec_withMsg (c : Config) {s : State} {m : Memory} (hs : s.msg.wf) (hm : m.wf) :
    ∃ m', cmdDec c { s with msg := m } = { cmdDec c s with msg := m' } := by
  have hmsg : (deriveK c s).msg.wf := by rwa [deriveK_msg]
  obtain ⟨m', hloop, -, -, hload⟩ := decPrefix_withMsg (c := c) (s.ctlen.toNat / 32) hm hmsg
  have hstrip := strip_withMsg (s := clearK (decPrefix c (s.ctlen.toNat / 32) (deriveK c s))) (suffixValue_congr hload)
  simp only [cmdDec_eq, malformedHex_withMsg, deriveK_withMsg, hloop]
  split_ifs
  · exact ⟨m, rfl⟩
  · exact ⟨m, rfl⟩
  · exact ⟨m', hstrip⟩

theorem effect_withMsg (i : Instr) {s : State} {m : Memory} (h : ∀ a < s.mlen.toNat, m.load a = s.msg.load a)
    (hs : s.msg.wf) (hm : m.wf) : ∃ m', effect i { s with msg := m } = { effect i s with msg := m' } := by
  cases i with
  | sbf | sbi | prm | upr | rot | xky | bfw | bin | hxe => exact ⟨m, rfl⟩
  | kdf =>
    refine ⟨m, ?_⟩
    simp only [effect, cmdKdf_eq, password]
    split_ifs <;> rfl
  | hxd => exact ⟨m, by simp only [effect, cmdHxd_eq]⟩
  | enc => exact ⟨m, cmdEnc_withMsg _ h⟩
  | dec => exact cmdDec_withMsg _ hs hm

theorem deriveK_withCt (c : Config) (s : State) (m : Memory) :
    deriveK c { s with ct := m } = { deriveK c s with ct := m } := rfl

theorem captureNow_withCt (c : Config) (s : State) (m : Memory) :
    captureNow c { s with ct := m } = { captureNow c s with ct := m } := rfl

theorem malformedHex_withCt {s : State} {m : Memory} (h : ∀ a < s.ctlen.toNat, m.load a = s.ct.load a) :
    malformedHex { s with ct := m } = malformedHex s := by
  have hct : ciphertext { s with ct := m } = ciphertext s :=
    Memory.loadAll_congr fun i hi => by simpa only [Nat.zero_add] using h i hi
  simp only [malformedHex, hct]

/-- ENC writes the ciphertext and reads none of it. -/
theorem cmdEnc_withCt (c : Config) (s : State) (m : Memory) :
    ∃ m', cmdEnc c { s with ct := m } = { cmdEnc c s with ct := m' } := by
  obtain ⟨m', hloop⟩ := encPrefix_withCt c (blockCount s.mlen.toNat) (finalLen s.mlen.toNat) (blockCount s.mlen.toNat)
    (deriveK c (captureNow c s)) m
  simp only [cmdEnc_eq, captureNow_withCt, deriveK_withCt, hloop]
  split_ifs
  · exact ⟨m, rfl⟩
  · exact ⟨m, rfl⟩
  · exact ⟨m', rfl⟩

/-- DEC reads ciphertext bytes below `CTLEN` alone. -/
theorem cmdDec_withCt (c : Config) {s : State} {m : Memory} (h : ∀ a < s.ctlen.toNat, m.load a = s.ct.load a) :
    cmdDec c { s with ct := m } = { cmdDec c s with ct := m } := by
  have hct : ∀ a < s.ctlen.toNat, m.load a = (deriveK c s).ct.load a := by simpa only [deriveK_ct] using h
  have hloop := decPrefix_withCt (c := c) hct (Nat.mul_div_le s.ctlen.toNat 32)
  simp only [cmdDec_eq, malformedHex_withCt h, deriveK_withCt, hloop, clearK, strip_eq]
  split_ifs <;> rfl

theorem effect_withCt (i : Instr) {s : State} {m : Memory} (h : ∀ a < s.ctlen.toNat, m.load a = s.ct.load a) :
    ∃ m', effect i { s with ct := m } = { effect i s with ct := m' } := by
  cases i with
  | sbf | sbi | prm | upr | rot | xky | bfw | bin | hxe => exact ⟨m, rfl⟩
  | kdf =>
    refine ⟨m, ?_⟩
    simp only [effect, cmdKdf_eq, password]
    split_ifs <;> rfl
  | hxd => exact ⟨m, by simp only [effect, cmdHxd_eq]⟩
  | enc => exact cmdEnc_withCt ..
  | dec => exact ⟨m, cmdDec_withCt _ h⟩

/-- Settles O51: each command's effect carries the other buffer along. -/
theorem bytesBeyondTheLengthAreIgnored : Obligations.BytesBeyondTheLengthAreIgnored := by
  intro i s m
  refine ⟨effect i s, exec_eq_effect i s, fun hpw => ?_, fun hmsg hs hm => ?_, fun hct _ _ => ?_⟩
  · rw [exec_eq_effect, effect_withPw i hpw]
  · obtain ⟨m', heffect⟩ := effect_withMsg i hmsg hs hm
    exact ⟨_, exec_eq_effect i _, by rw [heffect]⟩
  · obtain ⟨m', heffect⟩ := effect_withCt i hct
    exact ⟨_, exec_eq_effect i _, by rw [heffect]⟩

end Sys2Proof.Machine
end

