-- ==== Sys2Proof/Proofs/EncodingFamily.lean ====
section

namespace Sys2Proof.Machine

open Sys2Proof.Claims

/-! The command byte: its fields, its command, and the 13 bytes as the encoder's range (30_encoding.md R71 to R74) -/

/-- Settles O1: each of the 13 bytes is the encoding of its command. -/
theorem commandBytesDecodeToTheirCommands : Obligations.CommandBytesDecodeToTheirCommands :=
  ⟨decode_encode .sbf, decode_encode .sbi, decode_encode .prm, decode_encode .upr, decode_encode .rot, decode_encode .xky,
    decode_encode .kdf, decode_encode .bfw, decode_encode .bin, decode_encode .hxe, decode_encode .hxd, decode_encode .enc,
    decode_encode .dec⟩

/-- A byte is made of its fields. -/
theorem byteOfFields_fieldsOf (v : Byte) : byteOfFields (fieldsOf v) = v := by
  simp only [byteOfFields, fieldsOf]
  rw [BitVec.extractLsb'_append_extractLsb'_eq_extractLsb' (by rfl),
    BitVec.extractLsb'_append_extractLsb'_eq_extractLsb' (by rfl)]
  exact BitVec.extractLsb'_eq_self

/-- Fields that decode to a command are that command's row of the opcode map. -/
theorem encodeFields_of_decodeFields {f : CmdFields} {i : Instr} (h : decodeFields f = .instr i) : encodeFields i = f := by
  obtain ⟨unit, z, dir⟩ := f
  have fields_eq {u d : Nat} (hz : ¬z ≠ 0) (hu : unit.toNat = u) (hd : dir.toNat = d) :
      (⟨BitVec.ofNat 4 u, 0, BitVec.ofNat 1 d⟩ : CmdFields) = ⟨unit, z, dir⟩ := by
    rw [not_not.1 hz, ← hu, ← hd, BitVec.ofNat_toNat, BitVec.ofNat_toNat, BitVec.setWidth_eq, BitVec.setWidth_eq]
  unfold decodeFields at h
  split at h
  · cases h
  next hz =>
    split at h <;> cases h
    all_goals exact fields_eq hz ‹_› ‹_›

/-- The decoder answers a command for that command's byte alone. -/
theorem decode_eq_instr_iff (i : Instr) (v : Byte) : decode v = .instr i ↔ v = encode i := by
  constructor
  · intro h
    rw [encode, encodeFields_of_decodeFields h, byteOfFields_fieldsOf]
  · rintro rfl
    exact decode_encode i

/-- The 13 commands in the order of the opcode map (30_encoding.md R72). -/
def commands : List Instr := [.sbf, .sbi, .prm, .upr, .rot, .xky, .kdf, .bfw, .bin, .hxe, .hxd, .enc, .dec]

theorem mem_commands (i : Instr) : i ∈ commands := by
  cases i <;> decide

theorem commandBytes_eq : commandBytes = commands.map encode := by
  decide

theorem mem_commandBytes_iff (v : Byte) : v ∈ commandBytes ↔ ∃ i, encode i = v := by
  simp only [commandBytes_eq, List.mem_map, mem_commands, true_and]

/-- The decoder rejects exactly the bytes that no command has (30_encoding.md R74). -/
theorem decode_rejected_iff (v : Byte) : (∃ why, decode v = .rejected why) ↔ v ∉ commandBytes := by
  rw [mem_commandBytes_iff]
  cases hd : decode v with
  | instr i =>
    have hv := (decode_eq_instr_iff i v).1 hd
    exact ⟨nofun, fun hno => absurd ⟨i, hv.symm⟩ hno⟩
  | rejected why =>
    refine ⟨fun _ => ?_, fun _ => ⟨why, rfl⟩⟩
    rintro ⟨i, rfl⟩
    rw [decode_encode] at hd
    cases hd

theorem tableByte_toNat (v : Byte) : tableByte 8 v.toNat = v := by
  rw [tableByte, Nat.mod_eq_of_lt v.isLt, BitVec.ofNat_toNat, BitVec.setWidth_eq]

theorem fieldsOf_encode (i : Instr) : fieldsOf (encode i) = encodeFields i := by
  cases i <;> decide

theorem encodeFields_wf (i : Instr) : (encodeFields i).wf = true := by
  cases i <;> decide

/-- Settles O2: a byte is made of its fields, and fields that decode are a row of the opcode map. -/
theorem decodeAndEncodeAgreeOnEveryByte : Obligations.DecodeAndEncodeAgreeOnEveryByte := by
  refine ⟨decode_eq_instr_iff, decode_rejected_iff, fun i => ⟨?_, ?_⟩⟩
  · rw [decodeTableWord, tableByte_toNat, decodeBytes, decode_encode, Decoded.toOption]
  · rw [fieldsOf_encode]
    exact encodeFields_wf i

/-! What only some commands write (30_encoding.md R76, the column "Writes") -/

/-- ENC reads the message and leaves it. -/
theorem cmdEnc_keeps_message (c : Config) (s : State) : cmdEnc c s = { cmdEnc c s with msg := s.msg, mlen := s.mlen } := by
  rw [cmdEnc_eq]
  split_ifs
  · rfl
  · rfl
  · rw [encPrefix_frame]
    simp only [deriveK, captureNow]

/-- DEC reads the timestamp and the ciphertext and leaves them, and draws nothing. -/
theorem cmdDec_keeps_ciphertext (c : Config) (s : State) : cmdDec c s = { cmdDec c s with
    ts := s.ts, ct := s.ct, ctlen := s.ctlen, nowDraws := s.nowDraws, fillerDraws := s.fillerDraws } := by
  rw [cmdDec_eq]
  split_ifs
  · rfl
  · rfl
  · rw [strip_eq, decPrefix_frame]
    simp only [clearK, deriveK]

/-- Only ENC writes the timestamp and the ciphertext and draws. -/
theorem effect_keeps_ciphertext {i : Instr} (hi : i ≠ .enc) (s : State) : effect i s = { effect i s with
    ts := s.ts, ct := s.ct, ctlen := s.ctlen, nowDraws := s.nowDraws, fillerDraws := s.fillerDraws } := by
  cases i with
  | sbf | sbi | prm | upr | rot | xky | bfw | bin | hxe => rfl
  | kdf => simp only [effect, cmdKdf_eq]; split_ifs <;> rfl
  | hxd => simp only [effect, cmdHxd_eq]
  | enc => exact absurd rfl hi
  | dec => exact cmdDec_keeps_ciphertext ..

/-- Only DEC writes the message. -/
theorem effect_keeps_message {i : Instr} (hi : i ≠ .dec) (s : State) :
    effect i s = { effect i s with msg := s.msg, mlen := s.mlen } := by
  cases i with
  | sbf | sbi | prm | upr | rot | xky | bfw | bin | hxe => rfl
  | kdf => simp only [effect, cmdKdf_eq]; split_ifs <;> rfl
  | hxd => simp only [effect, cmdHxd_eq]
  | enc => exact cmdEnc_keeps_message ..
  | dec => exact absurd rfl hi

/-- Only KDF, ENC and DEC write the key matrix. -/
theorem effect_keeps_k {i : Instr} (hi : i ∉ [.kdf, .enc, .dec]) (s : State) :
    effect i s = { effect i s with k := s.k } := by
  cases i with
  | sbf | sbi | prm | upr | rot | xky | bfw | bin | hxe => rfl
  | hxd => simp only [effect, cmdHxd_eq]
  | kdf | enc | dec => simp at hi

/-- Only HXE, ENC and DEC write the hex register. -/
theorem effect_keeps_hx {i : Instr} (hi : i ∉ [.hxe, .enc, .dec]) (s : State) :
    effect i s = { effect i s with hx := s.hx } := by
  cases i with
  | sbf | sbi | prm | upr | rot | xky | bfw | bin => rfl
  | kdf => simp only [effect, cmdKdf_eq]; split_ifs <;> rfl
  | hxd => simp only [effect, cmdHxd_eq]
  | hxe | enc | dec => simp at hi

/-- KDF and HXE leave the block register. -/
theorem effect_keeps_b {i : Instr} (hi : i ∈ [.kdf, .hxe]) (s : State) : effect i s = { effect i s with b := s.b } := by
  obtain rfl | rfl : i = .kdf ∨ i = .hxe := by simpa using hi
  · simp only [effect, cmdKdf_eq]
    split_ifs <;> rfl
  · rfl

/-- Settles O49: every command completes with its effect, whose frames are those above. -/
theorem commandsWriteOnlyTheirOperands : Obligations.CommandsWriteOnlyTheirOperands := by
  intro i s
  refine ⟨effect i s, exec_eq_effect i s, effect_cmd .., ?_, ?_, effect_script .., effect_reads .., fun hi => ?_,
    fun hi => ?_, fun hi => ?_, fun hi => ?_, fun hi => ?_⟩
  · rw [effect_frame]
  · rw [effect_frame]
  · rw [effect_keeps_ciphertext hi]
    exact ⟨rfl, rfl, rfl, rfl, rfl⟩
  · rw [effect_keeps_message hi]
    exact ⟨rfl, rfl⟩
  · rw [effect_keeps_k hi]
  · rw [effect_keeps_hx hi]
  · rw [effect_keeps_b hi]

/-! A run of bus writes at ascending addresses (30_encoding.md R79) -/

/-- The bytes of a string written to the locations `loc i`, `loc (i + 1)`, … in order. -/
def writeAll (loc : Nat → Loc) (i : Nat) (l : List Byte) (s : State) : State :=
  (l.zipIdx i).foldl (fun t x => locWrite x.1 t (loc x.2)) s

theorem writeAll_busy (loc : Nat → Loc) (i : Nat) (l : List Byte) (s : State) : (writeAll loc i l s).busy = s.busy := by
  induction l generalizing i s with
  | nil => rfl
  | cons v vs ih => exact (ih _ _).trans (locWrite_busy ..)

theorem updateScript_eq_self {s : State} {ops : List HostOp} (h : s.script = ops) : { s with script := ops } = s := by
  rw [← h]

/-- A write to a location other than `CMD` is one step, and what follows in the script stays. -/
theorem run_write {s : State} {a : Addr} {l : Loc} (hidle : s.idle) (hl : locate Config.engine a = l) (hcmd : l ≠ .cmd)
    (v : Byte) (ops : List HostOp) (n : Nat) :
    Sys2Proof.core.run (n + 1) { s with script := .write a v :: ops }
      = Sys2Proof.core.run n { locWrite v s l with script := ops } := by
  subst hl
  have hstep := step_write (s := { s with script := .write a v :: ops }) hidle rfl hcmd
  rw [locWrite_withScript v s _ ops] at hstep
  exact run_succ hstep

/-- The traffic of a byte string writes it to the locations of its addresses, one step a byte. -/
theorem run_loadBytes {base size : Nat} {loc : Nat → Loc}
    (hloc : ∀ i < size, locate Config.engine (BitVec.ofNat 16 (base + i)) = loc i) (hcmd : ∀ i, loc i ≠ .cmd) (l : List Byte)
    (ops : List HostOp) (n : Nat) {i : Nat} {s : State} (hidle : s.idle) (hfit : i + l.length ≤ size) :
    Sys2Proof.core.run (l.length + n) { s with script := loadBytes (base + i) l ++ ops }
      = Sys2Proof.core.run n { writeAll loc i l s with script := ops } := by
  induction l generalizing i s with
  | nil => rw [List.length_nil, Nat.zero_add]; rfl
  | cons v vs ih =>
    rw [List.length_cons] at hfit
    have hidle' : (locWrite v s (loc i)).idle := (locWrite_busy ..).trans hidle
    rw [List.length_cons, Nat.add_right_comm]
    exact (run_write hidle (hloc i (by omega)) (hcmd i) v _ _).trans (ih hidle' (i := i + 1) (by omega))

/-! A length register written by its halves -/

/-- A length register after the two writes of the length n. -/
def withLength (w : Half) (n : Nat) : Half := setHi (setLo w (BitVec.ofNat 8 (n % 256))) (BitVec.ofNat 8 (n / 256))

theorem withLength_toNat (w : Half) {n : Nat} (hn : n < 65536) : (withLength w n).toNat = n := by
  rw [withLength, setHi_eq, setLo_eq]
  simp only [BitVec.toNat_ofNat]
  omega

/-- The traffic of a length is a write of each half. -/
theorem run_loadLength {base : Nat} {lo hi : Loc} (hlo : locate Config.engine (BitVec.ofNat 16 base) = lo)
    (hhi : locate Config.engine (BitVec.ofNat 16 (base + 1)) = hi) (hcmdLo : lo ≠ .cmd) (hcmdHi : hi ≠ .cmd) (n : Nat)
    (rest : List HostOp) {s : State} (hidle : s.idle) :
    Sys2Proof.core.run 2 { s with script := loadLength base n ++ rest } = .next
      { locWrite (BitVec.ofNat 8 (n / 256)) (locWrite (BitVec.ofNat 8 (n % 256)) s lo) hi with script := rest } :=
  (run_write hidle hlo hcmdLo _ _ 1).trans
    ((run_write ((locWrite_busy ..).trans hidle) hhi hcmdHi _ _ 0).trans (run_zero _))

/-- A buffer's whole load step: its string, then its length. -/
theorem run_loadString {base lenBase size : Nat} {loc : Nat → Loc} {lo hi : Loc}
    (hloc : ∀ i < size, locate Config.engine (BitVec.ofNat 16 (base + i)) = loc i) (hcmd : ∀ i, loc i ≠ .cmd)
    (hlo : locate Config.engine (BitVec.ofNat 16 lenBase) = lo)
    (hhi : locate Config.engine (BitVec.ofNat 16 (lenBase + 1)) = hi) (hcmdLo : lo ≠ .cmd) (hcmdHi : hi ≠ .cmd)
    {s : State} {l : List Byte} {rest : List HostOp} (hidle : s.idle) (hfit : l.length ≤ size)
    (hs : s.script = loadBytes base l ++ loadLength lenBase l.length ++ rest) :
    Sys2Proof.core.run (l.length + 2) s = .next
      { locWrite (BitVec.ofNat 8 (l.length / 256))
          (locWrite (BitVec.ofNat 8 (l.length % 256)) (writeAll loc 0 l s) lo) hi with script := rest } := by
  rw [List.append_assoc] at hs
  have hidle' : (writeAll loc 0 l s).idle := (writeAll_busy ..).trans hidle
  calc Sys2Proof.core.run (l.length + 2) s
      = Sys2Proof.core.run (l.length + 2) { s with
          script := loadBytes (base + 0) l ++ (loadLength lenBase l.length ++ rest) } :=
        congrArg (Sys2Proof.core.run _) (updateScript_eq_self hs).symm
    _ = Sys2Proof.core.run 2 { writeAll loc 0 l s with script := loadLength lenBase l.length ++ rest } :=
        run_loadBytes hloc hcmd l _ 2 hidle (by omega)
    _ = _ := run_loadLength hlo hhi hcmdLo hcmdHi _ rest hidle'

/-! The buffers' load steps -/

theorem Memory.storeAll_eq_foldl (m : Memory) (i : Nat) (l : List Byte) :
    m.storeAll i l = (l.zipIdx i).foldl (fun m x => m.store x.2 x.1) m := by
  induction l generalizing m i with
  | nil => rfl
  | cons v vs ih => exact ih _ _

/-- Writes to a buffer's locations store the string, wherever the buffer stands in the state. -/
theorem writeAll_buffer {loc : Nat → Loc} {put : Memory → State}
    (hput : ∀ (m : Memory) (i : Nat) (v : Byte), locWrite v (put m) (loc i) = put (m.store i v)) (m : Memory) (i : Nat)
    (l : List Byte) : writeAll loc i l (put m) = put (m.storeAll i l) := by
  rw [Memory.storeAll_eq_foldl]
  exact List.foldl_hom put fun m x => hput m x.2 x.1

theorem writeAll_pw (i : Nat) (l : List Byte) (s : State) : writeAll .pw i l s = { s with pw := s.pw.storeAll i l } :=
  writeAll_buffer (put := fun m => { s with pw := m }) (fun _ _ _ => rfl) s.pw i l

theorem writeAll_msg (i : Nat) (l : List Byte) (s : State) : writeAll .msg i l s = { s with msg := s.msg.storeAll i l } :=
  writeAll_buffer (put := fun m => { s with msg := m }) (fun _ _ _ => rfl) s.msg i l

theorem writeAll_ct (i : Nat) (l : List Byte) (s : State) : writeAll .ct i l s = { s with ct := s.ct.storeAll i l } :=
  writeAll_buffer (put := fun m => { s with ct := m }) (fun _ _ _ => rfl) s.ct i l

/-- A string stored at index 0 is the buffer's first bytes. -/
theorem Memory.loadAll_storeAll_zero {m : Memory} (h : m.wf) (l : List Byte) :
    (m.storeAll 0 l).loadAll 0 l.length = l := by
  refine List.ext_getElem (Memory.length_loadAll ..) fun i _ hi => ?_
  rw [Memory.getElem_loadAll, Memory.load_storeAll_inside h 0 hi]

section LoadSteps

variable {s : State} {l : List Byte} {rest : List HostOp}

theorem run_ldpw (hidle : s.idle) (hfit : l.length ≤ Config.engine.pwMax) (hs : s.script = expand (.ldpw l) ++ rest) :
    Sys2Proof.core.run (l.length + 2) s = .next { s with
      script := rest, pw := s.pw.storeAll 0 l, pwlen := withLength s.pwlen l.length } := by
  rw [run_loadString (fun _ => locate_pw _) nofun (locate_pwlenLo _) (locate_pwlenHi _) nofun nofun hidle hfit hs,
    writeAll_pw]
  rfl

theorem run_ldmsg (hidle : s.idle) (hfit : l.length ≤ Config.engine.msgSize) (hs : s.script = expand (.ldmsg l) ++ rest) :
    Sys2Proof.core.run (l.length + 2) s = .next { s with
      script := rest, msg := s.msg.storeAll 0 l, mlen := withLength s.mlen l.length } := by
  rw [run_loadString (fun _ => locate_msg _) nofun (locate_mlenLo _) (locate_mlenHi _) nofun nofun hidle hfit hs,
    writeAll_msg]
  rfl

theorem run_ldct (hidle : s.idle) (hfit : l.length ≤ Config.engine.ctSize) (hs : s.script = expand (.ldct l) ++ rest) :
    Sys2Proof.core.run (l.length + 2) s = .next { s with
      script := rest, ct := s.ct.storeAll 0 l, ctlen := withLength s.ctlen l.length } := by
  rw [run_loadString (fun _ => locate_ct _) nofun (locate_ctlenLo _) (locate_ctlenHi _) nofun nofun hidle hfit hs,
    writeAll_ct]
  rfl

end LoadSteps

/-! The registers' load steps -/

/-- A byte string set at ascending indices from i. -/
def setAll {n : Nat} [NeZero n] (r : Vector Byte n) (i : Nat) (l : List Byte) : Vector Byte n :=
  (l.zipIdx i).foldl (fun r x => r.set (Fin.ofNat n x.2) x.1) r

/-- A string that ends where the register ends replaces the register from its first index on. -/
theorem setAll_toList {n : Nat} [NeZero n] (r : Vector Byte n) {i : Nat} {l : List Byte} (hfit : i + l.length = n) :
    (setAll r i l).toList = r.toList.take i ++ l := by
  induction l generalizing r i with
  | nil =>
    have hi : i = n := by simpa using hfit
    simp [setAll, hi]
  | cons v vs ih =>
    rw [List.length_cons] at hfit
    have hi : (Fin.ofNat n i).val = i := Nat.mod_eq_of_lt (by omega)
    calc (setAll r i (v :: vs)).toList
        = (setAll (r.set (Fin.ofNat n i) v) (i + 1) vs).toList := rfl
      _ = (r.toList.set i v).take (i + 1) ++ vs := by rw [ih _ (by omega), Vector.toList_set, hi]
      _ = r.toList.take i ++ v :: vs := by
        rw [List.set_eq_take_append_cons_drop, if_pos (by simp; omega), List.append_cons,
          List.take_left' (by simp; omega), ← List.append_cons]

/-- A register's whole load step, wherever the register stands in the state: its bytes become the string. -/
theorem run_loadRegister {n base : Nat} [NeZero n] {loc : Fin n → Loc} {put : Vector Byte n → State}
    (hloc : ∀ i : Fin n, locate Config.engine (BitVec.ofNat 16 (base + i.val)) = loc i) (hcmd : ∀ i, loc i ≠ .cmd)
    (hput : ∀ (r : Vector Byte n) (i : Fin n) (v : Byte), locWrite v (put r) (loc i) = put (r.set i v))
    {r : Vector Byte n} {l : List Byte} {rest : List HostOp} (hidle : (put r).idle) (hlen : l.length = n)
    (hs : (put r).script = loadBytes base l ++ rest) :
    ∃ r', Sys2Proof.core.run n (put r) = .next { put r' with script := rest } ∧ r'.toList = l := by
  refine ⟨setAll r 0 l, ?_, ?_⟩
  · have hwrite : writeAll (fun i => loc (Fin.ofNat n i)) 0 l (put r) = put (setAll r 0 l) :=
      List.foldl_hom put fun r x => hput r _ x.1
    have hloc' : ∀ i < n, locate Config.engine (BitVec.ofNat 16 (base + i)) = loc (Fin.ofNat n i) := fun i hi => by
      rw [← hloc, Fin.val_ofNat, Nat.mod_eq_of_lt hi]
    have hrun := run_loadBytes hloc' (fun _ => hcmd _) l rest 0 (i := 0) hidle (by omega)
    rw [hwrite, Nat.add_zero, Nat.add_zero, hlen, updateScript_eq_self hs] at hrun
    exact hrun
  · rw [setAll_toList r (by omega), List.take_zero, List.nil_append]

/-- Settles O53: the traffic of a load step is its string's writes, then its length's; a canonical buffer reads back what it took. -/
theorem loadStepsPlaceTheirStrings : Obligations.LoadStepsPlaceTheirStrings := by
  intro s l rest hinv
  have hpw := pwMax_le Config.engine
  have hmsg := msgSize_le Config.engine
  have hct := ctSize_le Config.engine
  refine ⟨fun hwf hs => ?_, fun hwf hs => ?_, fun hwf hs => ?_, fun hwf hs => ?_, fun hwf hs => ?_, fun hwf hs => ?_,
    fun hwf hs => ?_⟩
  · have hfit : l.length ≤ Config.engine.pwMax := of_decide_eq_true hwf
    refine ⟨_, run_ldpw hinv.idle hfit hs, ?_, fun a ha => ?_, rfl⟩
    · rw [password, withLength_toNat _ (by omega)]
      exact Memory.loadAll_storeAll_zero hinv.buffers.pwWf l
    · exact Memory.load_storeAll_outside hinv.buffers.pwWf (by omega)
  · have hfit : l.length ≤ Config.engine.msgSize := of_decide_eq_true hwf
    refine ⟨_, run_ldmsg hinv.idle hfit hs, ?_, fun a ha => ?_, rfl⟩
    · rw [message, withLength_toNat _ (by omega)]
      exact Memory.loadAll_storeAll_zero hinv.buffers.msgWf l
    · exact Memory.load_storeAll_outside hinv.buffers.msgWf (by omega)
  · have hfit : l.length ≤ Config.engine.ctSize := of_decide_eq_true hwf
    refine ⟨_, run_ldct hinv.idle hfit hs, ?_, fun a ha => ?_, rfl⟩
    · rw [ciphertext, withLength_toNat _ (by omega)]
      exact Memory.loadAll_storeAll_zero hinv.buffers.ctWf l
    · exact Memory.load_storeAll_outside hinv.buffers.ctWf (by omega)
  · obtain ⟨r, hrun, hr⟩ := run_loadRegister (put := fun r => { s with b := r }) (r := s.b) (locate_b _) nofun
      (fun _ _ _ => rfl) hinv.idle (beq_iff_eq.1 hwf) hs
    exact ⟨_, hrun, hr, rfl⟩
  · obtain ⟨r, hrun, hr⟩ := run_loadRegister (put := fun r => { s with k := r }) (r := s.k) (locate_k _) nofun
      (fun _ _ _ => rfl) hinv.idle (beq_iff_eq.1 hwf) hs
    exact ⟨_, hrun, hr, rfl⟩
  · obtain ⟨r, hrun, hr⟩ := run_loadRegister (put := fun r => { s with ts := r }) (r := s.ts) (locate_ts _) nofun
      (fun _ _ _ => rfl) hinv.idle (beq_iff_eq.1 hwf) hs
    exact ⟨_, hrun, hr, rfl⟩
  · obtain ⟨r, hrun, hr⟩ := run_loadRegister (put := fun r => { s with hx := r }) (r := s.hx) (locate_hx _) nofun
      (fun _ _ _ => rfl) hinv.idle (beq_iff_eq.1 hwf) hs
    exact ⟨_, hrun, hr, rfl⟩

end Sys2Proof.Machine
end

section

namespace Sys2Proof.Machine

open Sys2Proof.Claims

/-! The commands that transform the block register -/

/-- Two block transforms in sequence restore `B` where the second map undoes the first. -/
theorem transformB_cancel {f g : Block → Block} {s : State} (h : g (f s.b) = s.b) :
    transformB g (transformB f s) = ok s := by
  simp only [transformB_eq, h]

/-! SBF and SBI: the S-box and its inverse on every lane (40_sbox.md R93, R94) -/

theorem subAll_eq_ofFn (c : Config) (b : Block) : subAll c b = Vector.ofFn fun i => c.sbox b[i] := by
  ext i h : 1
  rw [subAll_getElem, Vector.getElem_ofFn]
  rfl

theorem subInvAll_eq_ofFn (c : Config) (b : Block) : subInvAll c b = Vector.ofFn fun i => c.sbox.symm b[i] := by
  ext i h : 1
  rw [subInvAll_getElem, Vector.getElem_ofFn]
  rfl

theorem exec_sbf (s : State) : exec .sbf s = .next (transformB (subAll Config.engine) s) := rfl

theorem exec_sbi (s : State) : exec .sbi s = .next (transformB (subInvAll Config.engine) s) := rfl

/-- The first row of `SBOX_AES` (40_sbox.md R93's worked example). -/
theorem subAll_counting : subAll vectors counting =
    #v[0x63, 0x7c, 0x77, 0x7b, 0xf2, 0x6b, 0x6f, 0xc5, 0x30, 0x01, 0x67, 0x2b, 0xfe, 0xd7, 0xab, 0x76] := by
  decide +kernel

/-- Settles O17: a block transform whose lanes are the S-box entries. -/
theorem sbfSubstitutesEveryLane : Obligations.SbfSubstitutesEveryLane := by
  refine ⟨fun s => ?_, subAll_counting⟩
  rw [exec_sbf, transformB_eq, subAll_eq_ofFn]

/-- Settles O18: a block transform whose lanes are the inverse S-box entries; the two maps undo each other, on the worked
example too, which is SBF's read backwards. -/
theorem sbiInvertsEveryLane : Obligations.SbiInvertsEveryLane := by
  refine ⟨fun s => ?_, fun s => ?_, fun s => ?_, ?_⟩
  · rw [exec_sbi, transformB_eq, subInvAll_eq_ofFn]
  · exact ⟨_, _, exec_sbf s, exec_sbi _, transformB_cancel (subInvAll_subAll _ _)⟩
  · exact ⟨_, _, exec_sbi s, exec_sbf _, transformB_cancel (subAll_subInvAll _ _)⟩
  · rw [← subAll_counting]
    exact subInvAll_subAll vectors counting

end Sys2Proof.Machine
end

section

namespace Sys2Proof.Machine

open Sys2Proof.Claims

/-! PRM: the gather by `PERM` (41_permutation.md R100, R102) -/

/-- The byte string of a permuted block is the block's, read through `PERM`. -/
theorem permute_toList (c : Config) (b : Block) : (permute c b).toList = List.ofFn ((fun i : Fin 16 => b[i]) ∘ c.perm) :=
  Vector.toList_ofFn ..

/-- The permutation keeps the multiset of the bytes (41_permutation.md R102). -/
theorem permute_toList_perm (c : Config) (b : Block) : (permute c b).toList.Perm b.toList := by
  have hlanes : List.ofFn (fun i : Fin 16 => b[i]) = b.toList := by
    rw [← Vector.toList_ofFn]
    exact congrArg Vector.toList (Vector.ofFn_getElem ..)
  rw [permute_toList, ← hlanes]
  exact Equiv.Perm.ofFn_comp_perm c.perm _

theorem permute_replicate (c : Config) (x : Byte) : permute c (Vector.replicate 16 x) = Vector.replicate 16 x := by
  ext i h : 1
  rw [permute_getElem, Fin.getElem_fin, Vector.getElem_replicate, Vector.getElem_replicate]

/-- Lane i of the worked examples' block holds i. -/
theorem counting_lane (i : Fin 16) : counting[i] = BitVec.ofNat 8 i.val := by
  decide +revert

/-- The block that counts its lanes shows the table `PERM` itself (41_permutation.md R102). -/
theorem permute_counting (c : Config) (i : Fin 16) : (permute c counting)[i] = BitVec.ofNat 8 (c.perm i).val := by
  rw [Fin.getElem_fin, permute_getElem, counting_lane]

/-- The table `PERM_T` (41_permutation.md R102's worked example). -/
theorem permute_vectors_counting : permute vectors counting =
    #v[0x03, 0x0a, 0x01, 0x08, 0x0f, 0x06, 0x0d, 0x04, 0x0b, 0x02, 0x09, 0x00, 0x07, 0x0e, 0x05, 0x0c] := by
  decide

theorem exec_prm (s : State) : exec .prm s = .next (transformB (permute Config.engine) s) := rfl

/-- Settles O19: a block transform whose lanes are the old ones read through the bijection `PERM`. -/
theorem prmGathersTheBytes : Obligations.PrmGathersTheBytes := by
  refine ⟨fun s => ?_, fun s => ?_, fun s x hb => ?_, fun s hb => ?_, permute_vectors_counting⟩
  · rw [exec_prm, transformB_eq, permute]
  · exact ⟨_, exec_prm s, permute_toList_perm _ _⟩
  · exact ⟨_, exec_prm s, by rw [transformB_b, hb, permute_replicate]⟩
  · exact ⟨_, exec_prm s, fun i => by rw [transformB_b, hb, permute_counting]⟩

/-! UPR: the scatter to `PERM` (41_permutation.md R101, R103) -/

/-- Lane i goes to lane `PERM[i]`. -/
theorem unpermute_getElem_perm (c : Config) (p : Block) (i : Fin 16) : (unpermute c p)[c.perm i] = p[i] := by
  simp only [Fin.getElem_fin, unpermute_getElem, Fin.eta, Equiv.symm_apply_apply]

theorem exec_upr (s : State) : exec .upr s = .next (transformB (unpermute Config.engine) s) := rfl

/-- The table `INV_PERM_T` (41_permutation.md R103's second worked example). -/
theorem unpermute_vectors_counting : unpermute vectors counting =
    #v[0x0b, 0x02, 0x09, 0x00, 0x07, 0x0e, 0x05, 0x0c, 0x03, 0x0a, 0x01, 0x08, 0x0f, 0x06, 0x0d, 0x04] := by
  decide

/-- Settles O20: a block transform that puts lane i at lane `PERM[i]`; the gather and the scatter undo each other, on the first
worked example too, which is PRM's read backwards. -/
theorem uprScattersTheBytes : Obligations.UprScattersTheBytes := by
  refine ⟨fun s => ?_, fun s => ?_, fun s => ?_, ?_, unpermute_vectors_counting⟩
  · exact ⟨_, exec_upr s, transformB_eq .., unpermute_getElem_perm _ _⟩
  · exact ⟨_, _, exec_prm s, exec_upr _, transformB_cancel (unpermute_permute _ _)⟩
  · exact ⟨_, _, exec_upr s, exec_prm _, transformB_cancel (permute_unpermute _ _)⟩
  · rw [← permute_vectors_counting]
    exact unpermute_permute vectors counting

end Sys2Proof.Machine
end

section

namespace Sys2Proof.Machine

open Sys2Proof.Claims

/-! The key matrix in bytes (42_key_derivation.md R112 to R118) -/

/-- Character n of a 256-bit integer in hex is a nibble of its byte n div 2, both counted from the most significant, the high
nibble's first (42_key_derivation.md R114). -/
theorem hexString_getElem {x n : Nat} {y : Byte} (h : n < 64) (hy : x / 256 ^ (31 - n / 2) % 256 = y.toNat) :
    (hexString x)[n] = if n % 2 = 0 then hexChar (hiNibble y) else hexChar (loNibble y) := by
  have hpow : (16 : Nat) ^ (2 * (31 - n / 2)) = 256 ^ (31 - n / 2) := pow_mul 16 2 _
  rw [hexString, Vector.getElem_ofFn, hiNibble, loNibble, ← hy]
  split
  · rw [show 63 - n = 2 * (31 - n / 2) + 1 by omega, pow_succ, hpow, ← Nat.div_div_eq_div_mul]
    congr 1
    omega
  · rw [show 63 - n = 2 * (31 - n / 2) by omega, hpow]
    congr 1
    omega

/-- The key matrix in bytes (42_key_derivation.md R118). -/
theorem derive_getElem (c : Config) (pw ts : List Byte) (i : Nat) (h : i < 16) :
    (derive c pw ts)[i] =
      if i % 2 = 0 then hexChar (hiNibble ((c.hash256 pw)[i / 2] ^^^ (c.hash256 ts)[i / 2]))
      else hexChar (loNibble ((c.hash256 pw)[i / 2] ^^^ (c.hash256 ts)[i / 2])) := by
  simp only [derive, Vector.getElem_ofFn, Nat.mod_eq_of_lt (show i < 64 by omega)]
  exact hexString_getElem _ (digestInt_xor_byte _ _ _ _)

/-- The two runs of characters that are lowercase hex digits (00_scope.md R15). -/
theorem hexChar_toNat_range {n : Nat} (h : n < 16) :
    (0x30 ≤ (hexChar n).toNat ∧ (hexChar n).toNat ≤ 0x39) ∨ (0x61 ≤ (hexChar n).toNat ∧ (hexChar n).toNat ≤ 0x66) := by
  unfold hexChar
  split <;> rw [BitVec.toNat_ofNat] <;> omega

theorem derive_toNat_range (c : Config) (pw ts : List Byte) (i : Nat) (h : i < 16) :
    (0x30 ≤ (derive c pw ts)[i].toNat ∧ (derive c pw ts)[i].toNat ≤ 0x39)
      ∨ (0x61 ≤ (derive c pw ts)[i].toNat ∧ (derive c pw ts)[i].toNat ≤ 0x66) := by
  rw [derive_getElem]
  split
  · exact hexChar_toNat_range (hiNibble_lt _)
  · exact hexChar_toNat_range (loNibble_lt _)

/-- Settles O29: a key byte is a nibble's hex character, and which nibble it is depends on the exclusive-or of the digests' first
8 bytes alone. -/
theorem keyMatrixIsTheHexOfTheFirstEightDigestBytes : Obligations.KeyMatrixIsTheHexOfTheFirstEightDigestBytes := by
  intro c pw ts
  refine ⟨derive_getElem c pw ts, fun b hb i hi => ?_, fun i hi => ?_, fun d pw' ts' heq => ?_⟩
  · rw [derive_getElem, hexEnc, Vector.getElem_ofFn, hb (i / 2) (by omega)]
  · have hrange := derive_toNat_range c pw ts i hi
    have hbit : (derive c pw ts)[i].toNat < 2 ^ 7 := by omega
    exact ⟨hrange, Nat.testBit_lt_two_pow hbit⟩
  · ext i hi : 1
    rw [derive_getElem, derive_getElem, heq (i / 2) (by omega)]

/-! KDF (42_key_derivation.md R119) -/

theorem exec_kdf (s : State) : exec .kdf s = .next (cmdKdf Config.engine s) := rfl

/-- The password is the buffer's bytes below the length register's value (10_state.md R31). -/
theorem password_eq_map (s : State) : password s = (List.range s.pwlen.toNat).map fun i => s.pw.load i := by
  simp only [password, Memory.loadAll, Nat.zero_add]

theorem password_eq_nil {s : State} (h : s.pwlen = 0) : password s = [] := by
  rw [password_eq_map, h]
  rfl

theorem exec_kdf_ok {s : State} (h : s.pwlen.toNat ≤ Config.engine.pwMax) :
    exec .kdf s = .next (ok { s with k := derive Config.engine (password s) s.ts.toList }) := by
  rw [exec_kdf, cmdKdf_eq, if_neg (Nat.not_lt.2 h)]

/-- The key matrix `e407f69d831c294b` (42_key_derivation.md R119's worked example). -/
theorem derive_vectors_test : derive vectors [0x74, 0x65, 0x73, 0x74]
    [0x32, 0x30, 0x32, 0x34, 0x2d, 0x30, 0x31, 0x2d, 0x30, 0x31, 0x20, 0x30, 0x30, 0x3a, 0x30, 0x30] = keyTest := by
  decide +kernel

/-- Settles O28: the length check decides between the derivation, from the buffer's bytes below PWLEN, and the error. -/
theorem kdfDerivesTheKeyMatrix : Obligations.KdfDerivesTheKeyMatrix := by
  refine ⟨fun s h => ?_, fun s h => ?_, fun s h => ?_, rfl, derive_vectors_test⟩
  · rw [exec_kdf_ok h, password_eq_map]
  · have hlen : s.pwlen.toNat ≤ Config.engine.pwMax := by
      rw [h]
      exact Nat.zero_le _
    rw [exec_kdf_ok hlen, password_eq_nil h]
  · rw [exec_kdf, cmdKdf_long h, raise_eq]

end Sys2Proof.Machine
end

section

namespace Sys2Proof.Machine

open Sys2Proof.Claims

/-! ROT: the column rotation (43_block_transform.md R130 to R132) -/

/-- New cell (r, c) is old cell (r, (c + 2) mod 4). -/
theorem rotCols_cell (m : Block) (r c : Fin 4) :
    (rotCols m)[4 * r.val + c.val] = m[4 * r.val + (c.val + 2) % 4] := by
  have hrow : (4 * r.val + c.val) / 4 = r.val := by omega
  have hcol : (4 * r.val + c.val) % 4 = c.val := by omega
  simp only [rotCols, Vector.getElem_ofFn, hrow, hcol]

/-- The same, by the lane's index in the byte string. -/
theorem rotCols_lane (m : Block) (i : Fin 16) : (rotCols m)[i] = m.toList.getD (i.val ^^^ 2) 0x00 := by
  have hin : i.val ^^^ 2 < m.toList.length := by
    rw [Vector.length_toList]
    exact xor_two_lt i.isLt
  rw [Fin.getElem_fin, rotCols_getElem, List.getD_eq_getElem _ _ hin, Vector.getElem_toList]

theorem rotCols_counting : rotCols counting =
    #v[0x02, 0x03, 0x00, 0x01, 0x06, 0x07, 0x04, 0x05, 0x0a, 0x0b, 0x08, 0x09, 0x0e, 0x0f, 0x0c, 0x0d] := by
  decide

theorem exec_rot (s : State) : exec .rot s = .next (transformB rotCols s) := rfl

/-- Settles O21: a block transform by the column rotation, cell by cell and lane by lane. -/
theorem rotExchangesTheColumns : Obligations.RotExchangesTheColumns := by
  refine ⟨fun s => ?_, rotCols_counting⟩
  exact ⟨_, exec_rot s, transformB_eq .., rotCols_cell s.b, rotCols_lane s.b⟩

/-- Settles O22: the rotation undoes itself, and 0x31 is not among the 13 command bytes. -/
theorem rotTwiceRestoresTheBlock : Obligations.RotTwiceRestoresTheBlock := by
  refine ⟨rotCols_rotCols, fun s => ?_, (decode_rejected_iff 0x31).2 (by decide)⟩
  exact ⟨_, _, exec_rot s, exec_rot _, transformB_cancel (rotCols_rotCols _)⟩

/-! XKY: the exclusive-or with the key (43_block_transform.md R133, R134) -/

theorem xorKey_zero (b : Block) : xorKey b (Vector.replicate 16 0x00) = b := by
  ext i h : 1
  rw [xorKey_getElem, Vector.getElem_replicate]
  exact BitVec.xor_zero

theorem xorKey_counting_keyTest : xorKey counting keyTest =
    #v[0x65, 0x35, 0x32, 0x34, 0x62, 0x33, 0x3f, 0x63, 0x30, 0x3a, 0x3b, 0x68, 0x3e, 0x34, 0x3a, 0x6d] := by
  decide

theorem exec_xky (s : State) : exec .xky s = .next (transformB (xorKey · s.k) s) := rfl

/-- Settles O23: a block transform whose lanes are exclusive-ored with the key's, which the zero key leaves as they are. -/
theorem xkyXorsEveryLaneWithTheKey : Obligations.XkyXorsEveryLaneWithTheKey := by
  refine ⟨fun s => ?_, fun s hk => ?_, xorKey_counting_keyTest⟩
  · rw [exec_xky, transformB_eq, xorKey]
  · have hb : xorKey s.b s.k = s.b := by rw [hk, xorKey_zero]
    rw [exec_xky, transformB_eq, hb]

/-- Settles O24: the exclusive-or with a key undoes itself, and 0x41 is not among the 13 command bytes. -/
theorem xkyTwiceRestoresTheBlock : Obligations.XkyTwiceRestoresTheBlock := by
  refine ⟨fun b k => ?_, fun s => ?_, (decode_rejected_iff 0x41).2 (by decide)⟩
  · rw [BitVec.xor_assoc, BitVec.xor_self, BitVec.xor_zero]
  · exact ⟨_, _, exec_xky s, exec_xky _, transformB_cancel (xorKey_xorKey _ _)⟩

end Sys2Proof.Machine
end

section

namespace Sys2Proof.Machine

open Sys2Proof.Claims

/-! BFW and BIN: the four stages as one map, lane by lane and as a sequence of commands (43_block_transform.md R135, R137) -/

/-- The forward formula with `i xor 2` named as the lane j. -/
theorem forward_lane (c : Config) (b k : Block) {i j : Fin 16} (hj : j.val = i.val ^^^ 2) :
    (forward c b k)[i] = c.sbox b[c.perm j] ^^^ k[i] := by
  obtain rfl : j = ⟨i.val ^^^ 2, xor_two_lt i.isLt⟩ := Fin.ext hj
  exact forward_getElem c b k i.val i.isLt

/-- The inverse formula with `i xor 2` named as the lane j. -/
theorem inverse_lane (c : Config) (y k : Block) {i j : Fin 16} (hj : j.val = i.val ^^^ 2) :
    (inverse c y k)[c.perm i] = c.sbox.symm (y[j] ^^^ k[j]) := by
  rw [inverse, unpermute_getElem_perm, Fin.getElem_fin, subInvAll_getElem, rotCols_getElem, xorKey_getElem]
  simp only [Fin.getElem_fin, hj]

theorem forward_zero_key (c : Config) (b : Block) :
    forward c b (Vector.replicate 16 0x00) = rotCols (subAll c (permute c b)) := by
  rw [forward, xorKey_zero]

theorem forward_zero_block (c : Config) (k : Block) (i : Fin 16) :
    (forward c (Vector.replicate 16 0x00) k)[i] = c.sbox 0x00 ^^^ k[i] := by
  rw [Fin.getElem_fin, forward_getElem, Fin.getElem_fin, Vector.getElem_replicate]
  rfl

theorem exec_bfw (s : State) : exec .bfw s = .next (transformB (forward Config.engine · s.k) s) := rfl

theorem exec_bin (s : State) : exec .bin s = .next (transformB (inverse Config.engine · s.k) s) := rfl

/-- Two block transforms in sequence are one, by the composed map. -/
theorem transformB_transformB (f g : Block → Block) (s : State) :
    transformB g (transformB f s) = transformB (g ∘ f) s := by
  simp only [transformB_eq, Function.comp]

/-- The encrypted block of the worked example (43_block_transform.md R135). -/
theorem forward_vectors_hello : forward vectors helloBlock keyTest = helloCipher := by
  decide +kernel

/-- Settles O25: a block transform by the forward formula; the four stages, each a block transform of its own, compose to it. -/
theorem bfwIsTheForwardTransform : Obligations.BfwIsTheForwardTransform := by
  refine ⟨fun s => ⟨_, exec_bfw s, transformB_eq .., fun i j hj => forward_lane _ _ _ hj, ?_, fun hk => ?_, fun hb i => ?_⟩,
    forward_vectors_hello⟩
  · refine ⟨_, _, _, exec_prm s, exec_sbf _, exec_rot _, ?_⟩
    rw [exec_xky]
    simp only [transformB_transformB, transformB_k]
    rfl
  · rw [transformB_b, hk, forward_zero_key]
  · rw [transformB_b, hb, forward_zero_block]

/-- Settles O26: a block transform by the inverse formula; the four stages compose to it; the worked example is BFW's read
backwards. -/
theorem binIsTheInverseTransform : Obligations.BinIsTheInverseTransform := by
  refine ⟨fun s => ⟨_, exec_bin s, transformB_eq .., fun i j hj => inverse_lane _ _ _ hj, ?_⟩, ?_⟩
  · refine ⟨_, _, _, exec_xky s, exec_rot _, exec_sbi _, ?_⟩
    rw [exec_upr]
    simp only [transformB_transformB]
    rfl
  · rw [← forward_vectors_hello]
    exact inverse_forward vectors helloBlock keyTest

/-! The two directions against each other (43_block_transform.md R138) -/

theorem forward_bijective (c : Config) (k : Block) : Function.Bijective fun b => forward c b k :=
  Function.bijective_iff_has_inverse.2
    ⟨fun y => inverse c y k, fun b => inverse_forward c b k, fun y => forward_inverse c y k⟩

theorem xorKey_assoc (b k k' : Block) : xorKey (xorKey b k) k' = xorKey b (xorKey k k') := by
  ext i h : 1
  simp only [xorKey_getElem, BitVec.xor_assoc]

/-- The rotation moves lanes, so it distributes over the lane-wise exclusive-or. -/
theorem rotCols_xorKey (b k : Block) : rotCols (xorKey b k) = xorKey (rotCols b) (rotCols k) := by
  ext i h : 1
  rw [xorKey_getElem, rotCols_getElem, rotCols_getElem, rotCols_getElem, xorKey_getElem]

/-- The inverse with another key: the two keys meet in one exclusive-or under the rotation. -/
theorem inverse_forward_other_key (c : Config) (b k k' : Block) : inverse c (forward c b k) k' =
    unpermute c (subInvAll c (xorKey (subAll c (permute c b)) (rotCols (xorKey k k')))) := by
  rw [inverse, forward, xorKey_assoc, rotCols_xorKey, rotCols_rotCols]

/-- Settles O27: the inverse laws of the two maps, and the formula for a second key. -/
theorem blockTransformIsInvertible : Obligations.BlockTransformIsInvertible := by
  refine ⟨fun s => ?_, fun s => ?_, forward_bijective, inverse_forward_other_key, fun s k' => ?_⟩
  · exact ⟨_, _, exec_bfw s, exec_bin _, transformB_cancel (inverse_forward _ _ _)⟩
  · exact ⟨_, _, exec_bin s, exec_bfw _, transformB_cancel (forward_inverse _ _ _)⟩
  · exact ⟨_, _, exec_bfw s, exec_bin _, transformB_b .., transformB_err ..⟩

/-! Equal chunks under one key (43_block_transform.md R140, 45_message_codec.md R169) -/

/-- The final length that cannot be padded, by the message's length (45_message_codec.md R165). -/
theorem finalLen_unpaddable_iff (len : Nat) :
    (finalLen len = 14 ∨ finalLen len = 15) ↔ (len % 16 = 14 ∨ len % 16 = 15) := by
  unfold finalLen blockCount
  omega

/-- What ENC leaves when its checks pass. -/
theorem cmdEnc_of_encRuns {c : Config} {s : State} (h : EncRuns c s) : cmdEnc c s =
    { encPrefix c (blockCount s.mlen.toNat) (finalLen s.mlen.toNat) (blockCount s.mlen.toNat)
        (deriveK c (captureNow c s)) with
      ctlen := BitVec.ofNat 16 (32 * blockCount s.mlen.toNat), k := Vector.replicate 16 0
      err := .noError, busy := false } := by
  obtain ⟨hm, hp, h14, h15⟩ := h
  rw [cmdEnc_eq, if_neg (not_or.2 ⟨Nat.not_lt.2 hm, Nat.not_lt.2 hp⟩),
    if_neg (mt (finalLen_unpaddable_iff _).1 (not_or.2 ⟨h14, h15⟩))]

/-- Character i of chunk j's transformed block stands at `CT[32*j + i]` (45_message_codec.md R169). -/
theorem cmdEnc_ct_load {c : Config} {s : State} (hw : s.ct.wf) (h : EncRuns c s) {j i : Nat}
    (hj : j < blockCount s.mlen.toNat) (hi : i < 32) :
    (cmdEnc c s).ct.load (32 * j + i) = (hexEnc (encOut c s j))[i] := by
  have hspec := encPrefix_spec c (blockCount s.mlen.toNat) (finalLen s.mlen.toNat) _ (deriveK c (captureNow c s))
    (by simpa using hw) le_rfl
  rw [cmdEnc_of_encRuns h]
  exact hspec.ctBlock j hj i hi

/-- A chunk whose 16 bytes the message has is used as it is (45_message_codec.md R164). -/
theorem chunkBlock_of_full (c : Config) (s : State) {j : Nat} (h : 16 * j + 16 ≤ s.mlen.toNat) :
    chunkBlock c (blockCount s.mlen.toNat) (finalLen s.mlen.toNat) s j = fullChunk s j := by
  have hcover := blockCount_cover s.mlen.toNat
  have hle := finalLen_le s.mlen.toNat
  rw [chunkBlock, if_pos (by omega)]

theorem lt_blockCount {len j : Nat} (h : 16 * j + 16 ≤ len) : j < blockCount len := by
  unfold blockCount
  omega

/-- Settles O40: a full chunk's ciphertext is a function of its 16 bytes and the message's one key, and not of its position. -/
theorem equalChunksGiveEqualCiphertextBlocks : Obligations.EqualChunksGiveEqualCiphertextBlocks := by
  intro c s j k hw hruns hj hk heq i hi
  have hchunk : fullChunk s j = fullChunk s k := by
    ext a ha : 1
    rw [fullChunk, fullChunk, Vector.getElem_ofFn, Vector.getElem_ofFn]
    exact heq a ha
  have hout : encOut c s j = encOut c s k := by
    rw [encOut, encOut, chunkBlock_of_full c s hj, chunkBlock_of_full c s hk, hchunk]
  rw [cmdEnc_ct_load hw hruns (lt_blockCount hj) hi, cmdEnc_ct_load hw hruns (lt_blockCount hk) hi, hout]

end Sys2Proof.Machine
end

section

namespace Sys2Proof.Machine

open Sys2Proof.Claims

/-! The hex digits (00_scope.md R15, 44_hex_codec.md R152) -/

/-- Settles O32: each branch of `HEXVAL` is one of the three ranges. -/
theorem hexDigitsAreTheirCharacters : Obligations.HexDigitsAreTheirCharacters := by
  intro ch v
  simp only [hexVal]
  split_ifs
  · rw [Option.some.injEq]; omega
  · rw [Option.some.injEq]; omega
  · rw [Option.some.injEq]; omega
  · simp only [false_iff]; omega

theorem hexVal_lt {ch : Byte} {v : Nat} (h : hexVal ch = some v) : v < 16 := by
  have hrange := (hexDigitsAreTheirCharacters ch v).1 h
  omega

/-- A hex digit's value has the digit's character, its letter small (44_hex_codec.md R154). -/
theorem hexChar_of_hexVal {ch : Byte} {v : Nat} (h : hexVal ch = some v) : hexChar v = foldCase ch := by
  apply BitVec.eq_of_toNat_eq
  unfold hexChar foldCase
  obtain ⟨hlo, hhi, hv⟩ | ⟨hlo, hhi, hv⟩ | ⟨hlo, hhi, hv⟩ := (hexDigitsAreTheirCharacters ch v).1 h
  · rw [if_pos (by omega), if_neg (by omega), BitVec.toNat_ofNat]
    omega
  · rw [if_neg (by omega), if_neg (by omega), BitVec.toNat_ofNat]
    omega
  · rw [if_neg (by omega), if_pos ⟨hlo, hhi⟩, BitVec.toNat_ofNat, BitVec.toNat_add, show (0x20 : Byte).toNat = 0x20 from rfl]
    omega

/-! HXE (44_hex_codec.md R150, R151) -/

theorem exec_hxe (s : State) : exec .hxe s = .next (cmdHxe s) := rfl

theorem cmdHxe_hx (s : State) : (cmdHxe s).hx = hexEnc s.b := rfl

/-- Every character of an encoding is a lowercase hex digit. -/
theorem hexEnc_toNat_range (b : Block) (n : Nat) (h : n < 32) :
    (0x30 ≤ (hexEnc b)[n].toNat ∧ (hexEnc b)[n].toNat ≤ 0x39)
      ∨ (0x61 ≤ (hexEnc b)[n].toNat ∧ (hexEnc b)[n].toNat ≤ 0x66) := by
  rw [hexEnc, Vector.getElem_ofFn]
  split
  · exact hexChar_toNat_range (hiNibble_lt _)
  · exact hexChar_toNat_range (loNibble_lt _)

/-- The two characters of a byte whose value is known. -/
theorem hexEnc_pair {b : Block} {i : Nat} {x : Byte} (h : i < 16) (hx : b[i] = x) :
    (hexEnc b)[2 * i] = hexChar (hiNibble x) ∧ (hexEnc b)[2 * i + 1] = hexChar (loNibble x) := by
  rw [← hx]
  exact ⟨hexEnc_getElem_even b i h, hexEnc_getElem_odd b i h⟩

/-- The worked example (44_hex_codec.md R151). -/
theorem hexEnc_helloCipher : hexEnc helloCipher = helloHex := by
  decide

/-- Settles O30: the end state holds the encoding of `B`, whose characters are those of its nibbles. -/
theorem hxeRendersTheBlockInHex : Obligations.HxeRendersTheBlockInHex := by
  refine ⟨fun s => ⟨_, exec_hxe s, complete_eq _, fun i => ?_, fun i h => ?_, fun i h => ?_, fun n => ?_⟩, hexEnc_helloCipher⟩
  · exact hexEnc_pair i.isLt rfl
  · exact hexEnc_pair i.isLt h
  · exact hexEnc_pair i.isLt h
  · exact hexEnc_toNat_range s.b n.val n.isLt

/-! HXD (44_hex_codec.md R152, R153) -/

theorem exec_hxd (s : State) : exec .hxd s = .next (cmdHxd s) := rfl

/-- The nibbles of a byte made of two hex digits' values. -/
theorem nibbles_ofNat {u v : Nat} (hu : u < 16) (hv : v < 16) :
    hiNibble (BitVec.ofNat 8 (16 * u + v)) = u ∧ loNibble (BitVec.ofNat 8 (16 * u + v)) = v := by
  rw [hiNibble, loNibble, BitVec.toNat_ofNat]
  omega

theorem hexVal_isSome_of_hexDec {x : HexChars} {b : Block} (h : hexDec x = some b) (n : Nat) (hn : n < 32) :
    (hexVal x[n]).isSome := by
  rw [Option.isSome_iff_ne_none]
  intro hnone
  rw [hexDec_eq_none hn hnone] at h
  cases h

/-- The two characters of a decoded byte are the digits of its nibbles, the high nibble's first (44_hex_codec.md R152). -/
theorem hexVal_of_hexDec {x : HexChars} {b : Block} (h : hexDec x = some b) (i : Nat) (hi : i < 16) :
    hexVal x[2 * i] = some (hiNibble b[i]) ∧ hexVal x[2 * i + 1] = some (loNibble b[i]) := by
  have hsome := hexVal_isSome_of_hexDec h
  obtain ⟨u, hu⟩ := Option.isSome_iff_exists.1 (hsome (2 * i) (by omega))
  obtain ⟨v, hv⟩ := Option.isSome_iff_exists.1 (hsome (2 * i + 1) (by omega))
  obtain ⟨hhi, hlo⟩ := nibbles_ofNat (hexVal_lt hu) (hexVal_lt hv)
  obtain rfl := Option.some.inj ((hexDec_eq_some hsome).symm.trans h)
  simp only [Vector.getElem_ofFn, hu, hv, Option.getD_some, hhi, hlo, and_self]

/-- HXD restores the block whose encoding `HX` holds. -/
theorem cmdHxd_of_hexEnc {s : State} {b : Block} (h : s.hx = hexEnc b) : cmdHxd s = complete { s with b := b } :=
  cmdHxd_some (by rw [h, hexDec_hexEnc])

/-- The worked example in capitals (44_hex_codec.md R153). -/
theorem hexDec_helloHex_capitals :
    hexDec (helloHex.map fun ch => if 0x61 ≤ ch.toNat then ch - 0x20 else ch) = some helloCipher := by
  decide +kernel

/-- Settles O31: `HexDec` is defined on 32 hex digits, its bytes' nibbles are the digits' values, and it is undefined when one
character is no hex digit. The first worked example is HXE's read backwards. -/
theorem hxdReadsTheBlockFromHex : Obligations.HxdReadsTheBlockFromHex := by
  refine ⟨fun s h => ?_, fun s n h => ?_, rfl, ?_, ?_, ?_⟩
  · have hdec := hexDec_eq_some fun n hn => Option.isSome_iff_ne_none.2 (h ⟨n, hn⟩)
    refine ⟨_, exec_hxd s, ?_, fun i x y hx hy => ?_⟩
    · rw [cmdHxd_some hdec, complete_eq]
    · obtain ⟨hhi, hlo⟩ := hexVal_of_hexDec hdec i.val i.isLt
      obtain rfl := Option.some.inj (hhi.symm.trans hx)
      obtain rfl := Option.some.inj (hlo.symm.trans hy)
      rw [cmdHxd_some hdec, complete_b]
      exact (Nat.div_add_mod _ 16).symm
  · rw [exec_hxd, cmdHxd_none (hexDec_eq_none n.isLt h), raise_eq]
  · rw [cmdHxd_of_hexEnc hexEnc_helloCipher.symm, complete_b]
  · rw [cmdHxd_some hexDec_helloHex_capitals, complete_b]
  · rw [cmdHxd_none (hexDec_eq_none (n := 1) (by decide) (by decide)), raise_err]

/-! There and back (44_hex_codec.md R154) -/

/-- Hex characters are the same when both characters of every byte are. -/
theorem hexChars_ext_pairs {x y : HexChars}
    (h : ∀ (i : Nat) (_ : i < 16), x[2 * i] = y[2 * i] ∧ x[2 * i + 1] = y[2 * i + 1]) : x = y := by
  ext n hn : 1
  obtain ⟨heven, hodd⟩ := h (n / 2) (by omega)
  obtain hn2 | hn2 : n = 2 * (n / 2) ∨ n = 2 * (n / 2) + 1 := by omega
  · simpa only [← hn2] using heven
  · simpa only [← hn2] using hodd

/-- The encoder undoes the decoder up to letter case. -/
theorem hexEnc_of_hexDec {x : HexChars} {b : Block} (h : hexDec x = some b) : hexEnc b = x.map foldCase := by
  refine hexChars_ext_pairs fun i hi => ?_
  obtain ⟨hhi, hlo⟩ := hexVal_of_hexDec h i hi
  rw [hexEnc_getElem_even b i hi, hexEnc_getElem_odd b i hi, hexChar_of_hexVal hhi, hexChar_of_hexVal hlo]
  simp only [Vector.getElem_map, and_self]

/-- Settles O33: `HexDec` undoes `HexEnc`, so HXD takes its branch without an error on what HXE leaves in `HX`. -/
theorem hexCodecRoundTrips : Obligations.HexCodecRoundTrips := by
  refine ⟨hexDec_hexEnc, fun s => ?_, fun x b h => hexEnc_of_hexDec h⟩
  have hback := cmdHxd_of_hexEnc (cmdHxe_hx s)
  refine ⟨_, _, exec_hxe s, exec_hxd _, ?_, ?_⟩
  · rw [hback, complete_b]
  · rw [hback, complete_err]

end Sys2Proof.Machine
end

section

namespace Sys2Proof.Machine

open Sys2Proof.Claims

/-! Chunks: how many, how long the last is, and what each holds (45_message_codec.md R162 to R166) -/

/-- Settles O34: the arithmetic of the chunk count and of the final chunk's length. -/
theorem chunkCountAndFinalLength : Obligations.ChunkCountAndFinalLength :=
  fun len => ⟨rfl, blockCount_cover len, finalLen_le len, finalLen_eq_zero len, finalLen_unpaddable_iff len⟩

theorem fullChunk_getElem (s : State) (j i : Nat) (h : i < 16) : (fullChunk s j)[i] = s.msg.load (16 * j + i) := by
  rw [fullChunk, Vector.getElem_ofFn]

theorem chunkBlock_eq_fullChunk {nblk n j : Nat} (h : j + 1 < nblk ∨ n = 16) (c : Config) (s : State) :
    chunkBlock c nblk n s j = fullChunk s j := by
  rw [chunkBlock, if_pos h]

theorem chunkBlock_eq_padChunk {nblk n j : Nat} (hj : nblk ≤ j + 1) (hn : n ≠ 16) (c : Config) (s : State) :
    chunkBlock c nblk n s j = padChunk c s j n := by
  rw [chunkBlock, if_neg (not_or.2 ⟨Nat.not_lt.2 hj, hn⟩)]

section PadChunk

variable (c : Config) (s : State) (j : Nat) {n i : Nat}

/-- The first part of a padded chunk: the chunk's own bytes. -/
theorem padChunk_getElem_of_lt (hi : i < n) (h : i < 16) : (padChunk c s j n)[i] = s.msg.load (16 * j + i) := by
  rw [padChunk, Vector.getElem_ofFn, if_pos hi]

/-- The second part: filler, one draw a position. -/
theorem padChunk_getElem_filler (hn : n ≤ i) (hi : i < 13) :
    (padChunk c s j n)[i] = fillerByte c (s.fillerDraws + (i - n)) := by
  rw [padChunk, Vector.getElem_ofFn, if_neg (Nat.not_lt.2 hn), dif_pos hi]

/-- The third part: the three digits of the chunk's length. -/
theorem padChunk_getElem_digit (hn : n ≤ 13) {d : Nat} (hd : d < 3) : (padChunk c s j n)[13 + d] = (dec3 n)[d] := by
  simp only [padChunk, Vector.getElem_ofFn]
  rw [if_neg (by omega), dif_neg (by omega)]
  simp only [Nat.add_sub_cancel_left]

end PadChunk

/-- Settles O35: a full chunk byte by byte, and the three parts of a padded one. -/
theorem shortFinalChunkIsPadded : Obligations.ShortFinalChunkIsPadded := by
  intro c s nblk n j i h
  refine ⟨fun hfull => ?_, fun hj hn => ?_⟩
  · simp only [chunkBlock_eq_fullChunk hfull, fullChunk_getElem]
  · simp only [chunkBlock_eq_padChunk hj (by omega : n ≠ 16)]
    refine ⟨fun hi => padChunk_getElem_of_lt c s j hi h, fun hni hi => ?_, ?_, ?_, ?_⟩
    · rw [padChunk_getElem_filler c s j hni hi]
      exact ⟨rfl, fillerByte_mem_padAlphabet c _⟩
    · rintro rfl
      exact padChunk_getElem_digit c s j hn (d := 0) (by decide)
    · rintro rfl
      exact padChunk_getElem_digit c s j hn (d := 1) (by decide)
    · rintro rfl
      exact padChunk_getElem_digit c s j hn (d := 2) (by decide)

end Sys2Proof.Machine
end

section

namespace Sys2Proof.Machine

open Sys2Proof.Claims

/-! ENC (45_message_codec.md R167 to R171) -/

theorem exec_enc (s : State) : exec .enc s = .next (cmdEnc Config.engine s) := rfl

/-- The loop's blocks are the message's under the key that ENC derives: capturing `TS` and deriving the key leave `MSG` and the
filler count (45_message_codec.md R167 to R169). -/
theorem forward_chunkBlock_eq_encOut (c : Config) (s : State) (j : Nat) :
    forward c (chunkBlock c (blockCount s.mlen.toNat) (finalLen s.mlen.toNat) (deriveK c (captureNow c s)) j)
      (deriveK c (captureNow c s)).k = encOut c s j := by
  have hmsg : (deriveK c (captureNow c s)).msg = s.msg := by simp only [deriveK_msg, captureNow_msg]
  have hdraws : (deriveK c (captureNow c s)).fillerDraws = s.fillerDraws := by
    simp only [deriveK_fillerDraws, captureNow_fillerDraws]
  rw [chunkBlock_congr hmsg hdraws, deriveK_k]
  rfl

/-- A chunk count times the size of a ciphertext block fits a length register. -/
theorem ctlen_toNat {c : Config} {len : Nat} (h : len ≤ c.msgSize) :
    (BitVec.ofNat 16 (32 * blockCount len)).toNat = 32 * blockCount len := by
  have hcount := blockCount_le h
  have hmax := maxBlocks_le c
  rw [BitVec.toNat_ofNat, Nat.mod_eq_of_lt (by omega)]

theorem encEnds_cmdEnc {c : Config} {s : State} (hw : s.ct.wf) (h : EncRuns c s) : EncEnds c s (cmdEnc c s) := by
  have ⟨hmlen, _, _, _⟩ := h
  have hspec := encPrefix_spec c (blockCount s.mlen.toNat) (finalLen s.mlen.toNat) (blockCount s.mlen.toNat)
    (deriveK c (captureNow c s)) (by simpa using hw) le_rfl
  have hpos := blockCount_pos s.mlen.toNat
  have hle := finalLen_le s.mlen.toNat
  have hblocks := fun j hj i hi => cmdEnc_ct_load (j := j) (i := i) hw h hj hi
  rw [cmdEnc_of_encRuns h] at hblocks ⊢
  generalize encPrefix _ _ _ _ _ = t at hspec hblocks ⊢
  obtain ⟨hframe, -, -, habove, hlast, -, hdraws⟩ := hspec
  obtain ⟨hb, hx⟩ := hlast (blockCount s.mlen.toNat - 1) (by omega)
  rw [forward_chunkBlock_eq_encOut] at hb
  have hpads : (blockCount s.mlen.toNat = blockCount s.mlen.toNat ∧ finalLen s.mlen.toNat ≠ 16
      ∧ 0 < blockCount s.mlen.toNat) ↔ finalLen s.mlen.toNat < 16 := by omega
  rw [if_congr hpads rfl rfl, deriveK_fillerDraws, captureNow_fillerDraws] at hdraws
  simp only [deriveK_ct, captureNow_ct] at habove
  constructor
  case frame => rw [hframe]; simp only [deriveK, captureNow]
  case captured => rw [hframe]; exact ⟨rfl, rfl⟩
  case drawn => exact hdraws
  case length => exact ctlen_toNat hmlen
  case blocks => exact hblocks
  case above => exact habove
  case last => exact ⟨hb, hx⟩
  case done => exact ⟨rfl, rfl, rfl⟩

/-- Settles O39: the loop's invariant at its last turn, then the end of the command. -/
theorem encWritesTheCiphertext : Obligations.EncWritesTheCiphertext :=
  ⟨fun _ _ hw h => encEnds_cmdEnc hw h, fun s hw h => ⟨_, exec_enc s, encEnds_cmdEnc hw h⟩⟩

end Sys2Proof.Machine
end

section

namespace Sys2Proof.Machine

open Sys2Proof.Claims

/-! The strip (45_message_codec.md R174, R179, R180) -/

theorem suffixValue_of_suffixDigits {m : Memory} {len d2 d1 d0 : Nat} (h : SuffixDigits m len d2 d1 d0) :
    suffixValue m len = some (100 * d2 + 10 * d1 + d0) := by
  obtain ⟨hlen, h2, h1, h0⟩ := h
  rw [suffixValue, if_neg (Nat.not_lt.2 hlen), h2, h1, h0]

theorem suffixDigits_of_suffixValue {m : Memory} {len n : Nat} (h : suffixValue m len = some n) :
    ∃ d2 d1 d0, SuffixDigits m len d2 d1 d0 := by
  unfold suffixValue at h
  split at h
  · cases h
  next hlen =>
    split at h
    next d2 d1 d0 h2 h1 h0 => exact ⟨d2, d1, d0, Nat.not_lt.1 hlen, h2, h1, h0⟩
    · cases h

theorem suffixValue_eq_none {m : Memory} {len : Nat} (h : ∀ d2 d1 d0, ¬ SuffixDigits m len d2 d1 d0) :
    suffixValue m len = none := by
  by_contra hsome
  obtain ⟨n, hn⟩ := Option.ne_none_iff_exists'.1 hsome
  obtain ⟨d2, d1, d0, hd⟩ := suffixDigits_of_suffixValue hn
  exact h d2 d1 d0 hd

/-- Whether a suffix is digits depends on the string's own bytes alone. -/
theorem suffixDigits_congr {m m' : Memory} {len : Nat} (h : ∀ a < len, m.load a = m'.load a) (d2 d1 d0 : Nat) :
    SuffixDigits m len d2 d1 d0 ↔ SuffixDigits m' len d2 d1 d0 := by
  refine and_congr_right fun hlen => ?_
  rw [h _ (by omega), h _ (by omega), h _ (by omega)]

@[simp] theorem strip_b (len : Nat) (s : State) : (strip len s).b = s.b := by rw [strip_eq]
@[simp] theorem strip_k (len : Nat) (s : State) : (strip len s).k = s.k := by rw [strip_eq]
@[simp] theorem strip_hx (len : Nat) (s : State) : (strip len s).hx = s.hx := by rw [strip_eq]
@[simp] theorem strip_msg (len : Nat) (s : State) : (strip len s).msg = s.msg := by rw [strip_eq]
@[simp] theorem strip_busy (len : Nat) (s : State) : (strip len s).busy = false := by rw [strip_eq]

/-- The two outcomes of the strip. -/
theorem strip_err (len : Nat) (s : State) : (strip len s).err = .noError ∨ (strip len s).err = .padFormatError := by
  rw [strip_eq]
  exact ite_eq_or_eq ..

theorem stripped_strip {len : Nat} (hlen : len < 65536) (s : State) : Stripped len (strip len s) where
  number d2 d1 d0 hd := by
    rw [strip_msg] at hd
    simp only [strip_eq, suffixValue_of_suffixDigits hd, Option.map_some, Option.getD_some, Option.isSome_some, if_true,
      BitVec.toNat_ofNat, and_true]
    exact Nat.mod_eq_of_lt (by omega)
  noNumber hd := by
    rw [strip_msg] at hd
    simp only [strip_eq, suffixValue_eq_none hd, Option.map_none, Option.getD_none, Option.isSome_none, Bool.false_eq_true,
      if_false, BitVec.toNat_ofNat, and_true]
    exact Nat.mod_eq_of_lt hlen

/-! DEC (45_message_codec.md R172, R173, R177, R178) -/

theorem exec_dec (s : State) : exec .dec s = .next (cmdDec Config.engine s) := rfl

theorem malformedHex_of_decRuns {c : Config} {s : State} (h : DecRuns c s) : malformedHex s = false := by
  obtain ⟨-, -, hmod, hhex⟩ := h
  rw [← Bool.not_eq_true, malformedHex_iff]
  rintro (hodd | ⟨m, hm, hnone⟩ | hne)
  · omega
  · exact hhex m hm hnone
  · exact hne hmod

/-- What DEC leaves when its checks pass. -/
theorem cmdDec_of_decRuns {c : Config} {s : State} (h : DecRuns c s) : cmdDec c s =
    strip (reconLen s) (clearK (decPrefix c (s.ctlen.toNat / 32) (deriveK c s))) := by
  have ⟨hct, hp, _, _⟩ := h
  exact cmdDec_ok hct hp (malformedHex_of_decRuns h)

/-- Past its checks DEC ends as the strip does. -/
theorem cmdDec_err_of_decRuns {c : Config} {s : State} (h : DecRuns c s) :
    (cmdDec c s).err = .noError ∨ (cmdDec c s).err = .padFormatError := by
  rw [cmdDec_of_decRuns h]
  exact strip_err ..

/-- DEC has checked every character, so every block of the ciphertext spells bytes (45_message_codec.md R177). -/
theorem hexDec_hexChunk {c : Config} {s : State} (h : DecRuns c s) (j : Nat) (hj : j < s.ctlen.toNat / 32) :
    ∃ y, hexDec (hexChunk s j) = some y := by
  obtain ⟨-, -, -, hhex⟩ := h
  refine ⟨_, hexDec_eq_some fun n hn => ?_⟩
  rw [hexChunk, Vector.getElem_ofFn, Option.isSome_iff_ne_none]
  exact hhex _ (by omega)

theorem hexChunk_deriveK (c : Config) (s : State) (j : Nat) : hexChunk (deriveK c s) j = hexChunk s j := by
  simp only [hexChunk, deriveK_ct]

theorem reconLen_lt {c : Config} {s : State} (h : s.ctlen.toNat ≤ c.ctSize) : reconLen s < 65536 := by
  have hsize := ctSize_le c
  unfold reconLen
  omega

theorem decEnds_cmdDec {c : Config} {s : State} (hw : s.msg.wf) (h : DecRuns c s) : DecEnds c s (cmdDec c s) := by
  choose! y hy using hexDec_hexChunk h
  have hspec := decPrefix_spec c y (s.ctlen.toNat / 32) (deriveK c s) (by simpa using hw)
    (by simpa only [hexChunk_deriveK] using hy)
  rw [cmdDec_of_decRuns h]
  generalize decPrefix _ _ _ = t at hspec ⊢
  obtain ⟨hframe, -, hblock, houtside, hlast, hfirst⟩ := hspec
  have hkey : (deriveK c s).k = decKey c s := deriveK_k ..
  simp only [hkey, deriveK_msg, hexChunk_deriveK] at hblock houtside hlast
  have ⟨hct, _, _, _⟩ := h
  constructor
  case frame => rw [strip_eq, hframe]; simp only [clearK, deriveK]
  case blocks => exact fun j hj => ⟨y j, hy j hj, by simpa only [strip_msg, clearK_msg] using hblock j hj⟩
  case above => simpa only [strip_msg, clearK_msg, reconLen] using houtside
  case last =>
    intro hlen
    obtain ⟨hb, hx⟩ := hlast (s.ctlen.toNat / 32 - 1) (by omega)
    have hrecon : reconLen s - 16 = 16 * (s.ctlen.toNat / 32 - 1) := by unfold reconLen; omega
    refine ⟨fun i hi => ?_, (strip_hx ..).trans hx⟩
    rw [hrecon, strip_msg, clearK_msg, hblock _ (by omega) i hi]
    simp only [strip_b, clearK_b, hb]
  case none =>
    intro hzero
    rw [strip_b, strip_hx, clearK_b, clearK_hx, hfirst (by omega), deriveK_b, deriveK_hx]
    exact ⟨rfl, rfl⟩
  case strip => exact stripped_strip (reconLen_lt hct) _
  case done => exact ⟨strip_k .., strip_busy ..⟩

/-- Settles O42: the loop's invariant at its last turn, then the strip. -/
theorem decReconstructsTheMessage : Obligations.DecReconstructsTheMessage :=
  ⟨fun _ _ hw h => decEnds_cmdDec hw h, fun s hw h => ⟨_, exec_dec s, decEnds_cmdDec hw h⟩⟩

theorem decRuns_of_ctlen_zero {c : Config} {s : State} (h : s.ctlen = 0) (hp : s.pwlen.toNat ≤ c.pwMax) : DecRuns c s := by
  have hzero : s.ctlen.toNat = 0 := by rw [h]; rfl
  unfold DecRuns
  rw [hzero]
  exact ⟨Nat.zero_le _, hp, rfl, nofun⟩

/-- With no ciphertext the loop makes no turn and the strip finds no suffix (45_message_codec.md R180). -/
theorem cmdDec_of_ctlen_zero {c : Config} {s : State} (h : s.ctlen = 0) (hp : s.pwlen.toNat ≤ c.pwMax) :
    cmdDec c s = failed .padFormatError { s with mlen := 0, k := Vector.replicate 16 0x00 } := by
  have hblocks : s.ctlen.toNat / 32 = 0 := by rw [h]; rfl
  rw [cmdDec_of_decRuns (decRuns_of_ctlen_zero h hp), reconLen, hblocks, decPrefix_zero, strip_eq]
  simp only [clearK, deriveK, suffixValue]
  rfl

/-- Settles O43: an empty ciphertext passes the checks, and the strip of an empty string raises the error. -/
theorem emptyCiphertextIsAPadFormatError : Obligations.EmptyCiphertextIsAPadFormatError := by
  intro s h hp
  rw [exec_dec, cmdDec_of_ctlen_zero h hp]

/-- Settles O41: the check names the three causes; past it DEC ends in the strip, which raises another error or none. -/
theorem malformedCiphertextIsRejected : Obligations.MalformedCiphertextIsRejected := by
  intro s hct hp
  refine ⟨fun hbad => ?_, fun hruns => ⟨_, exec_dec s, ?_⟩, fun hzero => ⟨_, exec_dec s, ?_⟩, rfl⟩
  · rw [exec_dec, cmdDec_malformed hct hp ((malformedHex_iff s).2 hbad), raise_eq]
  · obtain herr | herr := cmdDec_err_of_decRuns hruns
    · rw [herr]; decide
    · rw [herr]; decide
  · rw [cmdDec_of_ctlen_zero hzero hp]

/-! The key is cleared (45_message_codec.md R184) -/

theorem encodeMessage_k (c : Config) (s : State) : (encodeMessage c s).k = Vector.replicate 16 0x00 := rfl

theorem encodeMessage_err (c : Config) (s : State) : (encodeMessage c s).err = .noError := rfl

theorem decodeMessage_k (c : Config) (s : State) : (decodeMessage c s).k = Vector.replicate 16 0x00 := strip_k ..

theorem decodeMessage_err (c : Config) (s : State) :
    (decodeMessage c s).err = .noError ∨ (decodeMessage c s).err = .padFormatError := strip_err ..

/-- Settles O44: an error raised by the checks changes nothing but `ERR`; past the checks each command clears the key. -/
theorem keyIsClearedByEncAndDec : Obligations.KeyIsClearedByEncAndDec := by
  refine ⟨fun s => ⟨_, exec_enc s, ?_⟩, fun s => ⟨_, exec_dec s, ?_⟩⟩
  · obtain h | h | ⟨-, -, -, h⟩ := cmdEnc_cases Config.engine s <;> rw [h]
    · exact ⟨nofun, fun _ => raise_k ..⟩
    · exact ⟨nofun, fun _ => raise_k ..⟩
    · refine ⟨fun _ => encodeMessage_k .., fun herr => ?_⟩
      simp [encodeMessage_err] at herr
  · obtain h | h | ⟨-, -, -, h⟩ := cmdDec_cases Config.engine s <;> rw [h]
    · exact ⟨by simp, fun _ => raise_k ..⟩
    · exact ⟨by simp, fun _ => raise_k ..⟩
    · refine ⟨fun _ => decodeMessage_k .., fun herr => ?_⟩
      obtain hd | hd := decodeMessage_err Config.engine s <;> simp [hd] at herr

end Sys2Proof.Machine
end

section

namespace Sys2Proof.Machine

open Sys2Proof.Claims

/-! Lengths and chunks of a message ENC takes -/

theorem blockCount_of_le {len : Nat} (h : len ≤ 16) : blockCount len = 1 := by
  unfold blockCount
  omega

theorem finalLen_of_le {len : Nat} (h : len ≤ 16) : finalLen len = len := by
  rw [finalLen, blockCount_of_le h]
  rfl

theorem finalLen_of_not_dvd {len : Nat} (h : len % 16 ≠ 0) : finalLen len = len % 16 := by
  unfold finalLen blockCount
  omega

theorem blockCount_of_dvd {len : Nat} (hpos : 0 < len) (h : len % 16 = 0) : 16 * blockCount len = len := by
  unfold blockCount
  omega

/-- Whatever is padded, the chunks hold the message's bytes at the message's indices (45_message_codec.md R164). -/
theorem chunkBlock_getElem_of_lt (c : Config) (s : State) {len j i : Nat} (h : i < 16) (hlt : 16 * j + i < len) :
    (chunkBlock c (blockCount len) (finalLen len) s j)[i] = s.msg.load (16 * j + i) := by
  have hcover := blockCount_cover len
  by_cases hfull : j + 1 < blockCount len ∨ finalLen len = 16
  · simp only [chunkBlock_eq_fullChunk hfull, fullChunk_getElem]
  · obtain ⟨hj, hn⟩ := not_or.1 hfull
    have hi : i < finalLen len := by omega
    simp only [chunkBlock_eq_padChunk (Nat.not_lt.1 hj) hn, padChunk_getElem_of_lt c s j hi]

theorem encRuns_of_mlen_le {c : Config} {s : State} (hm : s.mlen.toNat ≤ 13) (hp : s.pwlen.toNat ≤ c.pwMax) :
    EncRuns c s := by
  have hsize := msgSize_pos c
  unfold EncRuns
  omega

/-! What ENC hands to DEC (45_message_codec.md R171, R173) -/

theorem cmdEnc_password (c : Config) (s : State) : password (cmdEnc c s) = password s := by
  rw [cmdEnc_frame]
  rfl

theorem cmdEnc_pwlen (c : Config) (s : State) : (cmdEnc c s).pwlen = s.pwlen := by rw [cmdEnc_frame]

theorem cmdEnc_msg (c : Config) (s : State) : (cmdEnc c s).msg = s.msg := by rw [cmdEnc_keeps_message]

section RoundTrip

variable {c : Config} {s : State} (hct : s.ct.wf) (h : EncRuns c s)
include hct h

theorem cmdEnc_ctlen : (cmdEnc c s).ctlen.toNat = 32 * blockCount s.mlen.toNat :=
  (encEnds_cmdEnc hct h).length

/-- ENC leaves in `TS` the draw it derived its key from, so DEC derives the same key. -/
theorem decKey_cmdEnc : decKey c (cmdEnc c s) = encKey c s := by
  obtain ⟨hts, -⟩ := (encEnds_cmdEnc hct h).captured
  rw [decKey, encKey, cmdEnc_password, hts]

theorem hexChunk_cmdEnc {j : Nat} (hj : j < blockCount s.mlen.toNat) :
    hexChunk (cmdEnc c s) j = hexEnc (encOut c s j) := by
  ext i hi : 1
  rw [hexChunk, Vector.getElem_ofFn, (encEnds_cmdEnc hct h).blocks j hj i hi]

theorem reconLen_cmdEnc : reconLen (cmdEnc c s) = 16 * blockCount s.mlen.toNat := by
  rw [reconLen, cmdEnc_ctlen hct h, Nat.mul_div_cancel_left _ (by decide)]

/-- ENC's output passes DEC's checks. -/
theorem decRuns_cmdEnc : DecRuns c (cmdEnc c s) := by
  have hlen := cmdEnc_ctlen hct h
  have ⟨hmlen, hpwlen, _, _⟩ := h
  refine ⟨?_, ?_, ?_, fun m hm => ?_⟩
  · rw [hlen]
    exact Nat.mul_le_mul_left 32 (blockCount_le hmlen)
  · rw [cmdEnc_pwlen]
    exact hpwlen
  · rw [hlen, Nat.mul_mod_right]
  · have hload := cmdEnc_ct_load hct h (j := m / 32) (i := m % 32) (by omega) (by omega)
    rw [Nat.div_add_mod] at hload
    rw [hload, ← Option.isSome_iff_ne_none]
    exact hexVal_hexEnc ..

variable (hmsg : s.msg.wf)
include hmsg

theorem decEnds_cmdEnc : DecEnds c (cmdEnc c s) (cmdDec c (cmdEnc c s)) :=
  decEnds_cmdDec (by rwa [cmdEnc_msg]) (decRuns_cmdEnc hct h)

theorem stripped_roundTrip : Stripped (16 * blockCount s.mlen.toNat) (cmdDec c (cmdEnc c s)) :=
  reconLen_cmdEnc hct h ▸ (decEnds_cmdEnc hct h hmsg).strip

/-- DEC of ENC's output reconstructs the padded chunks: the hex codec and the block transform, under the one key, are undone. -/
theorem roundTrip_block {j i : Nat} (hj : j < blockCount s.mlen.toNat) (hi : i < 16) :
    (cmdDec c (cmdEnc c s)).msg.load (16 * j + i) =
      (chunkBlock c (blockCount s.mlen.toNat) (finalLen s.mlen.toNat) s j)[i] := by
  have hlen := cmdEnc_ctlen hct h
  obtain ⟨y, hy, hblock⟩ := (decEnds_cmdEnc hct h hmsg).blocks j (by omega)
  rw [hexChunk_cmdEnc hct h hj, hexDec_hexEnc] at hy
  obtain rfl := Option.some.inj hy
  rw [hblock i hi]
  simp only [decKey_cmdEnc hct h, encOut, inverse_forward]

/-- The message's bytes all come back to `MSG`. -/
theorem roundTrip_load {a : Nat} (ha : a < s.mlen.toNat) : (cmdDec c (cmdEnc c s)).msg.load a = s.msg.load a := by
  have hpos := blockCount_pos s.mlen.toNat
  have hcover := blockCount_cover s.mlen.toNat
  have hle := finalLen_le s.mlen.toNat
  have hsplit : 16 * (a / 16) + a % 16 = a := Nat.div_add_mod a 16
  have hblock := roundTrip_block hct h hmsg (j := a / 16) (i := a % 16) (by omega) (by omega)
  rwa [chunkBlock_getElem_of_lt c s (by omega) (hsplit.trans_lt ha), hsplit] at hblock

/-- A short final chunk was padded with its length, so the reconstructed string ends in the length's three digits
(45_message_codec.md R164, R174). -/
theorem roundTrip_digits (hn : finalLen s.mlen.toNat ≤ 13) :
    SuffixDigits (cmdDec c (cmdEnc c s)).msg (16 * blockCount s.mlen.toNat)
      (finalLen s.mlen.toNat / 100) (finalLen s.mlen.toNat / 10 % 10) (finalLen s.mlen.toNat % 10) := by
  have hpos := blockCount_pos s.mlen.toNat
  have hdigit {d : Nat} (hd : d < 3) :
      (cmdDec c (cmdEnc c s)).msg.load (16 * blockCount s.mlen.toNat - 3 + d) = (dec3 (finalLen s.mlen.toNat))[d] := by
    have hlast : 16 * blockCount s.mlen.toNat - 3 + d = 16 * (blockCount s.mlen.toNat - 1) + (13 + d) := by omega
    rw [hlast, roundTrip_block hct h hmsg (by omega) (by omega)]
    simp only [chunkBlock_eq_padChunk (show blockCount s.mlen.toNat ≤ blockCount s.mlen.toNat - 1 + 1 by omega)
      (show finalLen s.mlen.toNat ≠ 16 by omega), padChunk_getElem_digit c s _ hn hd]
  have h1 : 16 * blockCount s.mlen.toNat - 2 = 16 * blockCount s.mlen.toNat - 3 + 1 := by omega
  have h0 : 16 * blockCount s.mlen.toNat - 1 = 16 * blockCount s.mlen.toNat - 3 + 2 := by omega
  refine ⟨by omega, ?_, ?_, ?_⟩
  · exact (congrArg digitVal (hdigit (d := 0) (by decide))).trans (digitVal_digit (by omega))
  · rw [h1]
    exact (congrArg digitVal (hdigit (d := 1) (by decide))).trans (digitVal_digit (by omega))
  · rw [h0]
    exact (congrArg digitVal (hdigit (d := 2) (by decide))).trans (digitVal_digit (by omega))

/-- After a short final chunk DEC ends without an error and takes the final chunk's length for the message's
(45_message_codec.md R176, R182). -/
theorem roundTrip_short (hn : finalLen s.mlen.toNat ≤ 13) :
    (cmdDec c (cmdEnc c s)).err = .noError ∧ (cmdDec c (cmdEnc c s)).mlen.toNat = finalLen s.mlen.toNat := by
  have hpos := blockCount_pos s.mlen.toNat
  obtain ⟨hlen, herr⟩ := (stripped_roundTrip hct h hmsg).number _ _ _ (roundTrip_digits hct h hmsg hn)
  refine ⟨herr, hlen.trans ?_⟩
  omega

/-- When the length DEC leaves is within the message's, the result is that many first bytes of the message. -/
theorem roundTrip_message {n : Nat} (hn : (cmdDec c (cmdEnc c s)).mlen.toNat = n) (hle : n ≤ s.mlen.toNat) :
    message (cmdDec c (cmdEnc c s)) = (message s).take n := by
  have hlen : (message s).length = s.mlen.toNat := Memory.length_loadAll ..
  refine List.ext_getElem ?_ fun i hi _ => ?_
  · rw [message, Memory.length_loadAll, hn, List.length_take, hlen, Nat.min_eq_left hle]
  · rw [message, Memory.length_loadAll, hn] at hi
    simp only [message, List.getElem_take, Memory.getElem_loadAll, Nat.zero_add]
    exact roundTrip_load hct h hmsg (by omega)

end RoundTrip

/-- Settles O45: the message is its own final chunk, so its three digits give its whole length back. -/
theorem shortMessagesRoundTrip : Obligations.ShortMessagesRoundTrip := by
  intro s hmsg hct hm hp
  have hruns := encRuns_of_mlen_le hm hp
  have hcount : blockCount s.mlen.toNat = 1 := blockCount_of_le (by omega)
  have hfinal : finalLen s.mlen.toNat = s.mlen.toNat := finalLen_of_le (by omega)
  obtain ⟨herr, hlen⟩ := roundTrip_short hct hruns hmsg (by omega)
  refine ⟨_, _, exec_enc s, exec_dec _, herr, BitVec.eq_of_toNat_eq (hlen.trans hfinal), ?_, fun i hi => ?_⟩
  · rw [roundTrip_message hct hruns hmsg (hlen.trans hfinal) le_rfl]
    exact List.take_of_length_le (Memory.length_loadAll ..).le
  · have hblock := roundTrip_block hct hruns hmsg (j := 0) (by omega) hi
    simpa only [hcount, hfinal, Nat.mul_zero, Nat.zero_add] using hblock

/-- Settles O46: the strip takes the final chunk's three digits for the whole string's length (45_message_codec.md R176). -/
theorem longMessagesAreTruncatedToTheFinalLength : Obligations.LongMessagesAreTruncatedToTheFinalLength := by
  refine ⟨fun c s hmsg hct hlong hruns hmod => ?_, fun s => ⟨exec_enc s, exec_dec s⟩⟩
  have hfinal := finalLen_of_not_dvd hmod
  have hshort : finalLen s.mlen.toNat ≤ 13 := by
    obtain ⟨-, -, h14, h15⟩ := hruns
    omega
  obtain ⟨herr, hlen⟩ := roundTrip_short hct hruns hmsg hshort
  rw [hfinal] at hlen
  exact ⟨herr, hlen, roundTrip_message hct hruns hmsg hlen (Nat.mod_le ..), fun _ ha => roundTrip_load hct hruns hmsg ha,
    fun _ hj _ hi => roundTrip_block hct hruns hmsg hj hi⟩

/-- Settles O47: nothing was padded, so the reconstructed string is the message and the strip reads the message's own tail. -/
theorem unpaddedMessagesAreStrippedByTheirOwnTail : Obligations.UnpaddedMessagesAreStrippedByTheirOwnTail := by
  intro c s hmsg hct hpos hmod hruns
  have hload : ∀ a < s.mlen.toNat, (cmdDec c (cmdEnc c s)).msg.load a = s.msg.load a :=
    fun _ ha => roundTrip_load hct hruns hmsg ha
  have hstrip := stripped_roundTrip hct hruns hmsg
  rw [blockCount_of_dvd hpos hmod] at hstrip
  refine ⟨hload, fun d2 d1 d0 hd => ?_, fun hno => ?_⟩
  · exact (hstrip.number d2 d1 d0 ((suffixDigits_congr hload ..).2 hd)).symm
  · obtain ⟨hlen, herr⟩ := hstrip.noNumber fun d2 d1 d0 => mt (suffixDigits_congr hload ..).1 (hno d2 d1 d0)
    exact ⟨herr, BitVec.eq_of_toNat_eq hlen⟩

end Sys2Proof.Machine
end

section

namespace Sys2Proof.Machine

open Sys2Proof.Claims

/-! How each command can end (60_exceptions.md R190 to R198) -/

/-- The nine commands that complete on every state (60_exceptions.md R198). -/
theorem effect_err_of_never_raises {i : Instr} (hi : i ∈ [.sbf, .sbi, .prm, .upr, .rot, .xky, .bfw, .bin, .hxe]) (s : State) :
    (effect i s).err = .noError := by
  cases i with
  | sbf | sbi | prm | upr | rot | xky | bfw | bin | hxe => rfl
  | kdf | hxd | enc | dec => simp at hi

theorem cmdKdf_err_mem (c : Config) (s : State) : (cmdKdf c s).err ∈ [ErrCode.noError, .lengthError] := by
  by_cases h : c.pwMax < s.pwlen.toNat
  · simp [cmdKdf_long h]
  · simp [cmdKdf_ok (Nat.not_lt.1 h)]

theorem cmdHxd_err_mem (s : State) : (cmdHxd s).err ∈ [ErrCode.noError, .decodingError] := by
  cases h : hexDec s.hx with
  | none => simp [cmdHxd_none h]
  | some b => simp [cmdHxd_some h]

theorem cmdEnc_err_mem (c : Config) (s : State) :
    (cmdEnc c s).err ∈ [ErrCode.noError, .lengthError, .paddingOverflowError] := by
  obtain h | h | ⟨-, -, -, h⟩ := cmdEnc_cases c s
  · simp [h]
  · simp [h]
  · simp [h, encodeMessage_err]

theorem cmdDec_err_mem (c : Config) (s : State) :
    (cmdDec c s).err ∈ [ErrCode.noError, .lengthError, .decodingError, .padFormatError] := by
  obtain h | h | ⟨-, -, -, h⟩ := cmdDec_cases c s
  · simp [h]
  · simp [h]
  · obtain herr | herr := decodeMessage_err c s <;> simp [h, herr]

/-- Settles O48: every command completes with its effect, whose outcome is one of those above. -/
theorem errorsEachCommandCanRaise : Obligations.ErrorsEachCommandCanRaise := by
  intro i s
  refine ⟨_, exec_eq_effect i s, effect_busy i s, fun hi => effect_err_of_never_raises hi s, ?_, ?_, ?_, ?_⟩
  · rintro rfl
    exact cmdKdf_err_mem ..
  · rintro rfl
    exact cmdHxd_err_mem s
  · rintro rfl
    exact cmdEnc_err_mem ..
  · rintro rfl
    exact cmdDec_err_mem ..

/-! The error codes and the errors raised before a command does anything -/

/-- The outcome whose code a byte of `ERR` is, by the table of 60_exceptions.md R190. -/
def errOfCode (x : Byte) : ErrCode :=
  [ErrCode.noError, .illegalCommand, .decodingError, .paddingOverflowError, .padFormatError, .lengthError].getD x.toNat .noError

theorem errOfCode_code : Function.LeftInverse errOfCode ErrCode.code := by
  intro e
  cases e <;> rfl

/-- Settles O5: the table row by row, and the table read backwards gives each outcome from its code. -/
theorem errorCodesAreTheTable : Obligations.ErrorCodesAreTheTable :=
  ⟨rfl, rfl, rfl, rfl, rfl, rfl, errOfCode_code.injective⟩

/-- An error raised on a byte just accepted by an idle engine leaves the byte in `CMD` and the engine idle
(60_exceptions.md R191, R192). -/
theorem raise_accept {s : State} (hidle : s.idle) (e : ErrCode) (v : Byte) :
    raise e (accept v s) = { s with cmd := v, err := e } := by
  rw [raise_eq, ← hidle]
  rfl

/-- Settles O4: the decoder rejects the accepted byte, and the step is the error raised on it. -/
theorem illegalByteRaisesIllegalCommand : Obligations.IllegalByteRaisesIllegalCommand := by
  intro s v rest hidle hscript hv
  obtain ⟨why, hreject⟩ := (decode_rejected_iff v).2 hv
  refine ⟨?_, rfl⟩
  rw [step_rejected (hostTurn_cmd hidle hscript) hreject, raise_accept (s := { s with script := rest }) hidle]

/-- Settles O9: the host's turn settles in the state itself. -/
theorem engineWithoutHostOperationStays : Obligations.EngineWithoutHostOperationStays :=
  fun _ hscript => step_settled (hostTurn_nil hscript)

theorem exec_kdf_long {s : State} (h : Config.engine.pwMax < s.pwlen.toNat) :
    exec .kdf s = .next (failed .lengthError s) := by
  rw [exec_kdf, cmdKdf_long h, raise_eq]

theorem exec_enc_long {s : State} (h : Config.engine.msgSize < s.mlen.toNat ∨ Config.engine.pwMax < s.pwlen.toNat) :
    exec .enc s = .next (failed .lengthError s) := by
  rw [exec_enc, cmdEnc_long h, raise_eq]

theorem exec_dec_long {s : State} (h : Config.engine.ctSize < s.ctlen.toNat ∨ Config.engine.pwMax < s.pwlen.toNat) :
    exec .dec s = .next (failed .lengthError s) := by
  rw [exec_dec, cmdDec_long h, raise_eq]

/-- Settles O37: each of the three commands tests its lengths first, whatever else the state holds. -/
theorem lengthErrorComesFirst : Obligations.LengthErrorComesFirst := by
  intro s
  refine ⟨fun hpw => ?_, fun hmsg => ?_, fun hct => ?_, rfl⟩
  · exact ⟨exec_kdf_long hpw, exec_enc_long (.inr hpw), exec_dec_long (.inr hpw)⟩
  · exact exec_enc_long (.inl hmsg)
  · exact exec_dec_long (.inl hct)

/-- Settles O38: the final chunk's length is 14 or 15 when the message's is modulo 16; ENC's other way past its length check
completes. -/
theorem unpaddableFinalChunkOverflows : Obligations.UnpaddableFinalChunkOverflows := by
  intro s hm hp
  refine ⟨fun hlen => ?_, fun hlen => ⟨_, exec_enc s, ?_⟩, rfl⟩
  · rw [exec_enc, cmdEnc_overflow hm hp ((finalLen_unpaddable_iff _).2 hlen), raise_eq]
  · have hpaddable : ¬ (finalLen s.mlen.toNat = 14 ∨ finalLen s.mlen.toNat = 15) := by
      rw [finalLen_unpaddable_iff]
      omega
    rw [cmdEnc_ok hm hp hpaddable, encodeMessage_err]

end Sys2Proof.Machine
end

section

namespace Sys2Proof.Machine

open Sys2Proof.Claims

/-! Commands and bus writes keep the buffers well formed (20_memory.md R63) -/

/-- The buffers' well-formedness reads the three buffers and no other field. -/
theorem State.buffersWf.congr {c : Config} {s t : State} (h : s.buffersWf c) (hpw : t.pw = s.pw) (hmsg : t.msg = s.msg)
    (hct : t.ct = s.ct) : t.buffersWf c where
  pwWf := hpw ▸ h.pwWf
  pwSize := hpw ▸ h.pwSize
  msgWf := hmsg ▸ h.msgWf
  msgSize := hmsg ▸ h.msgSize
  ctWf := hct ▸ h.ctWf
  ctSize := hct ▸ h.ctSize

/-- ENC writes 32 characters a chunk, and a message that passes its length check has at most MAX_BLOCKS chunks
(45_message_codec.md R169, R170). -/
theorem cmdEnc_ct_wf {c : Config} {s : State} (hw : s.ct.wf) (hs : s.ct.within c.ctSize) :
    (cmdEnc c s).ct.wf ∧ (cmdEnc c s).ct.within c.ctSize := by
  obtain h | h | ⟨hm, -, -, h⟩ := cmdEnc_cases c s
  · rw [h]; exact ⟨hw, hs⟩
  · rw [h]; exact ⟨hw, hs⟩
  · rw [h]
    exact encPrefix_ct (s := deriveK c (captureNow c s)) _ _ (by simpa using hw) (by simpa using hs)
      (Nat.mul_le_mul_left 32 (blockCount_le hm))

/-- DEC writes 16 bytes for each 32 characters of a ciphertext that passes its length check (45_message_codec.md R173, R177). -/
theorem cmdDec_msg_wf {c : Config} {s : State} (hw : s.msg.wf) (hs : s.msg.within c.msgSize) :
    (cmdDec c s).msg.wf ∧ (cmdDec c s).msg.within c.msgSize := by
  obtain h | h | ⟨hlen, -, -, h⟩ := cmdDec_cases c s
  · rw [h]; exact ⟨hw, hs⟩
  · rw [h]; exact ⟨hw, hs⟩
  · have hfit : 16 * (s.ctlen.toNat / 32) ≤ c.msgSize := by
      unfold Config.ctSize at hlen
      unfold Config.msgSize
      omega
    rw [h, decodeMessage, strip_msg, clearK_msg]
    exact decPrefix_msg (s := deriveK c s) (by simpa using hw) (by simpa using hs) hfit

/-- Of the 13 commands ENC alone writes `CT`, DEC alone writes `MSG`, and none writes `PW` (30_encoding.md R76). -/
theorem effect_buffersWf {s : State} (h : s.buffersWf Config.engine) (i : Instr) :
    (effect i s).buffersWf Config.engine := by
  have hpw : (effect i s).pw = s.pw := by rw [effect_frame]
  obtain ⟨hmsgWf, hmsgSize⟩ : (effect i s).msg.wf ∧ (effect i s).msg.within Config.engine.msgSize := by
    by_cases hi : i = .dec
    · subst hi; exact cmdDec_msg_wf h.msgWf h.msgSize
    · rw [effect_keeps_message hi]; exact ⟨h.msgWf, h.msgSize⟩
  obtain ⟨hctWf, hctSize⟩ : (effect i s).ct.wf ∧ (effect i s).ct.within Config.engine.ctSize := by
    by_cases hi : i = .enc
    · subst hi; exact cmdEnc_ct_wf h.ctWf h.ctSize
    · rw [effect_keeps_ciphertext hi]; exact ⟨h.ctWf, h.ctSize⟩
  exact ⟨hpw ▸ h.pwWf, hpw ▸ h.pwSize, hmsgWf, hmsgSize, hctWf, hctSize⟩

/-- The address map locates no byte outside a buffer (20_memory.md R53), so a bus write stays inside. -/
theorem locWrite_buffersWf {c : Config} {s : State} {l : Loc} (h : s.buffersWf c) (hl : l.Inside c) (v : Byte) :
    (locWrite v s l).buffersWf c := by
  cases l with
  | pw i =>
    exact { h with pwWf := Memory.wf_store h.pwWf i v, pwSize := Memory.within_store h.pwSize (hl.pw i rfl) v }
  | msg i =>
    exact { h with msgWf := Memory.wf_store h.msgWf i v, msgSize := Memory.within_store h.msgSize (hl.msg i rfl) v }
  | ct i =>
    exact { h with ctWf := Memory.wf_store h.ctWf i v, ctSize := Memory.within_store h.ctSize (hl.ct i rfl) v }
  | _ => exact h.congr rfl rfl rfl

theorem busRead_buffersWf {c : Config} {s : State} (h : s.buffersWf c) (a : Addr) : (busRead c a s).buffersWf c := by
  unfold busRead
  cases locate c a with
  | _ => exact h.congr rfl rfl rfl

/-! The invariant -/

/-- The step, along what the host does next; a byte written to `CMD` is a command's effect or an error, which writes no buffer. -/
theorem step_buffersWf {s : State} (hidle : s.idle) (h : s.buffersWf Config.engine) :
    ∃ t, step s = .next t ∧ t.buffersWf Config.engine := by
  have hissued (rest : List HostOp) : State.buffersWf Config.engine { s with script := rest } := h.congr rfl rfl rfl
  rcases hs : s.script with _ | ⟨_ | _ | _, rest⟩
  case nil => exact ⟨s, step_settled (hostTurn_nil hs), h⟩
  case cons.write a v =>
    by_cases ha : locate Config.engine a = .cmd
    · obtain rfl := (locate_eq_cmd _ _).1 ha
      have hturn := hostTurn_cmd (c := Config.engine) hidle hs
      have haccept : (accept v { s with script := rest }).buffersWf Config.engine := h.congr rfl rfl rfl
      cases hd : decode v with
      | instr i => exact ⟨_, (step_command hturn hd).trans (exec_eq_effect ..), effect_buffersWf haccept i⟩
      | rejected why => exact ⟨_, step_rejected hturn hd, haccept.congr rfl rfl rfl⟩
    · exact ⟨_, step_write hidle hs ha, locWrite_buffersWf (hissued rest) (locate_inside ..) v⟩
  case cons.read a => exact ⟨_, step_settled (hostTurn_read hidle hs), busRead_buffersWf (hissued rest) a⟩
  case cons.reset =>
    exact ⟨_, step_settled (hostTurn_reset hs), resetStateIsWellFormed.buffers.congr rfl rfl rfl⟩

/-- Settles O55: a step has one next state, which is idle by `step_of_idle` and has well-formed buffers by `step_buffersWf`. -/
theorem stepKeepsTheInvariant : Obligations.StepKeepsTheInvariant := by
  intro s t hinv hstep
  obtain ⟨u, hu, hidle⟩ := step_of_idle hinv.idle
  obtain ⟨w, hw, hbuffers⟩ := step_buffersWf hinv.idle hinv.buffers
  obtain rfl := Host.Outcome.next.inj (hu.symm.trans hstep)
  obtain rfl := Host.Outcome.next.inj (hw.symm.trans hstep)
  exact ⟨hidle, hbuffers⟩

/-! RESET (70_reset_and_hazards.md R210, R211) -/

/-- RESET is accepted in every state, a busy one too (70_reset_and_hazards.md R214). -/
theorem step_reset {s : State} {rest : List HostOp} (hs : s.script = .reset :: rest) :
    step s = .next (resetEngine { s with script := rest }) :=
  step_settled (hostTurn_reset hs)

/-- Settles O6: the next state's engine fields are those of the reset state, whose buffers are empty lists. -/
theorem resetSetsEveryRegisterToZero : Obligations.ResetSetsEveryRegisterToZero :=
  fun _ _ hs => ⟨_, step_reset hs, rfl, rfl, rfl, rfl, rfl, rfl, rfl, rfl, rfl, rfl,
    fun i => ⟨Memory.load_nil i, Memory.load_nil i, Memory.load_nil i⟩⟩

/-- Settles O7: `resetEngine` carries the model's own fields along. -/
theorem resetKeepsTheModelsOwnFields : Obligations.ResetKeepsTheModelsOwnFields :=
  fun _ _ hs => ⟨_, step_reset hs, resetEngine_script _, resetEngine_reads _, resetEngine_nowDraws _, resetEngine_fillerDraws _⟩

/-- With a zero block and a zero key every lane is the S-box's first entry (70_reset_and_hazards.md R213). -/
theorem forward_zero_block_zero_key (c : Config) :
    forward c (Vector.replicate 16 0x00) (Vector.replicate 16 0x00) = Vector.replicate 16 (c.sbox 0x00) := by
  ext i hi : 1
  have hlane := forward_zero_block c (Vector.replicate 16 0x00) ⟨i, hi⟩
  simpa using hlane

/-- Settles O8: BFW of the zero block under the zero key, DEC of no ciphertext, and ENC of the empty message, which is one chunk. -/
theorem firstCommandsAfterReset : Obligations.FirstCommandsAfterReset := by
  refine ⟨⟨_, exec_bfw _, forward_zero_block_zero_key _⟩, ⟨_, exec_dec _, ?_⟩, ⟨_, exec_enc _, ?_⟩⟩
  · rw [cmdDec_of_ctlen_zero rfl (Nat.zero_le _)]
    exact ⟨rfl, rfl⟩
  · have hends := encEnds_cmdEnc (c := Config.engine) (s := State.reset) Memory.wf_nil
      (encRuns_of_mlen_le (Nat.zero_le _) (Nat.zero_le _))
    exact ⟨hends, rfl, rfl, BitVec.eq_of_toNat_eq hends.length⟩

/-! The busy engine (70_reset_and_hazards.md R216) -/

theorem step_busy_refused {s : State} {op : HostOp} {rest : List HostOp} (hbusy : s.busy = true) (hs : s.script = op :: rest)
    (hop : busyAllows Config.engine op = false) : step s = .refused .accessWhileBusy :=
  step_settled (by simp [hostTurn, hs, hostOp, hbusy, hop])

/-- A read that a busy engine allows is the bus read it is on an idle one. -/
theorem hostTurn_read_allowed {c : Config} {s : State} {a : Addr} {rest : List HostOp} (ha : busyAllows c (.read a) = true)
    (hs : s.script = .read a :: rest) : hostTurn c s = .settled (.next (busRead c a { s with script := rest })) := by
  simp [hostTurn, hs, hostOp, ha]

theorem busyAllows_read_iff (c : Config) (a : Addr) : busyAllows c (.read a) = true ↔ a = 0x0001 := by
  rw [busyAllows, beq_iff_eq, locate_eq_status]

/-- Settles O10: a busy engine allows a read of `STATUS` alone, which shows `BUSY` as 1. -/
theorem accessWhileBusyIsRefused : Obligations.AccessWhileBusyIsRefused := by
  intro s rest hbusy
  refine ⟨fun a v hs => step_busy_refused hbusy hs rfl, fun a ha hs => step_busy_refused hbusy hs ?_, fun ops hs => ?_⟩
  · rwa [← Bool.not_eq_true, busyAllows_read_iff]
  · have hstatus : statusByte s.busy = 0x01 := by rw [hbusy]; rfl
    have hturn := hostTurn_read_allowed ((busyAllows_read_iff Config.engine _).2 rfl) hs
    rw [busRead_eq (locate_status _) nofun, locRead_withHost, locRead, hstatus] at hturn
    exact settlesTo_of_hostTurn hturn

end Sys2Proof.Machine
end
